-- ==== Sys2Proof/Word.lean ====
section
/-! DEFINITION. The engine's plain word types: bytes, 32-bit command and response words, 24-bit lengths and counters. -/

namespace Sys2Proof

/-- A byte, bit 7 most significant (00_scope.md section 7; 20_memory.md R53). -/
abbrev Byte := BitVec 8

/-- A command word or a response word (30_encoding.md R70, R78). -/
abbrev Word := BitVec 32

/-- A buffer length in bytes, or a block counter: LENW = 24 bits (00_scope.md R6; 10_state.md R28). -/
abbrev Len := BitVec 24

end Sys2Proof
end

