-- ==== Sys2Proof/Config.lean ====
section
/-! DEFINITION. The parameters of 00_scope.md section 4 with this hardware's values, and the block primitive as a free value.
The block size is a parameter of every definition of the model that depends on it (R4): where it is not written it is this hardware's. -/

namespace Sys2Proof

/-- The block size in bytes of this hardware, which is also its key length (00_scope.md R4; entry 7). -/
abbrev Config.B : Nat := 16

/-- The width in bits of a buffer length (00_scope.md R6; entry 7). -/
abbrev Config.LENW : Nat := 24

/-- The largest number of blocks in one operation (00_scope.md R6). -/
abbrev Config.NBLKMAX (B : Nat := Config.B) : Nat := (2 ^ Config.LENW - 1) / B

/-- `KeyOK(n)`: whether a key of `n` bytes initialises the primitive (00_scope.md R5; entry 7). -/
def Config.keyOK (n : Nat) (B : Nat := Config.B) : Bool := n == B

/-- A Block: a byte sequence of length exactly `B`, index order (00_scope.md R12; 20_memory.md R53). -/
abbrev Block (B : Nat := Config.B) : Type := Vector Byte B

/-- A block primitive: for each key a permutation of the blocks.
By 00_scope.md R8 and R9 these are exactly the pairs (E, D) the spec allows (entry 6). -/
abbrev Primitive (B : Nat := Config.B) : Type := Block B → Equiv.Perm (Block B)

/-- The block primitive of the machine: a FREE VALUE, consumed and not specified (00_scope.md R7; entry 6).
DESIGN CHOICE of form: no body, so that nothing can be proved of it but R8 and R9. -/
opaque Config.primitive : Primitive

variable {B : Nat}

/-- `E(k, x)` of a primitive (00_scope.md R7). -/
def Primitive.E (P : Primitive B) (k x : Block B) : Block B := P k x

/-- `D(k, y)` of a primitive (00_scope.md R7), the inverse of `E(k, ·)` (R8, R9). -/
def Primitive.D (P : Primitive B) (k y : Block B) : Block B := (P k).symm y

/-- `zeros(B)` (00_scope.md section 7). -/
def Block.zeros : Block B := Vector.replicate B 0#8

end Sys2Proof
end

