-- ==== Sys2Proof/Syntax.lean ====
section
/-! DEFINITION. The six commands as syntax (30_encoding.md R72, R77), with the names of modes and directions, and what a host does on the ports. -/

namespace Sys2Proof

/-- A mode the engine knows (30_encoding.md R75). -/
inductive Mode where
  | ecb | cbc
  deriving DecidableEq, Repr

/-- A direction (30_encoding.md R76). -/
inductive Dir where
  | enc | dec
  deriving DecidableEq, Repr

/-- What `decode(W)` returns for a word that is no reserved word (30_encoding.md R77): one constructor per row of the opcode table.
A payload is no part of it: the decoder does not look at the payload. -/
inductive Instr where
  /-- KEYLD: load a key of `n` bytes (40_setup_commands.md R100). -/
  | keyld (n : BitVec 8)
  /-- IVLD: load the IV (R101). -/
  | ivld
  /-- IVCLR: make the IV absent (R102). -/
  | ivclr
  /-- START: open an operation; the `mode` field keeps its two unknown values 2 and 3 (41_operation_commands.md R122; 30_encoding.md R75). -/
  | start (mode : BitVec 2) (dir : Dir) (len : Len)
  /-- BLK: process the next block (R129). -/
  | blk
  /-- ERRCLR: clear the recorded error code (40_setup_commands.md R103). -/
  | errclr
  deriving DecidableEq, Repr

/-- A command as the host means it: an instruction with the payload that goes with it (30_encoding.md R70). -/
structure Command where
  instr : Instr
  payload : List Byte
  deriving DecidableEq, Repr

/-- A host move (70_reset_and_hazards.md R231): a command word put on CMD with the payload bytes presented on DIN, or reset on RST.
The word may be any of the 2^32, and the bytes may fall short of the word's payload length (20_memory.md R55). -/
inductive HostMove where
  | issue (word : Word) (payload : List Byte)
  | reset
  deriving DecidableEq, Repr

end Sys2Proof
end

