-- ==== Sys2Proof/WellFormed.lean ====
section
/-! DEFINITION. When a command is well formed: its payload has the length its instruction asks for (30_encoding.md R74, R77; 20_memory.md R55).
Every instruction by itself is well formed: its fields have exactly the widths of 30_encoding.md R71. -/

namespace Sys2Proof

/-- The payload length of an instruction, read off its operands (30_encoding.md R74; the payload column of R72). -/
def Instr.payloadLen (i : Instr) (B : Nat := Config.B) : Nat :=
  match i with
  | .keyld n => n.toNat
  | .ivld => B
  | .ivclr => 0
  | .start _ _ _ => 0
  | .blk => B
  | .errclr => 0

/-- "payload length equals the required length" (20_memory.md R55). -/
def Command.wellFormed (c : Command) (B : Nat := Config.B) : Bool := c.payload.length == c.instr.payloadLen B

end Sys2Proof
end

