-- ==== Sys2Proof/Decode.lean ====
section
/-! DEFINITION. The decoder, total on all 32-bit words and rejecting by name (30_encoding.md R71 to R77, R80), the payload length of a word (R74), and the encoder written from the same formats. -/

namespace Sys2Proof

/-- A row of the opcode map (30_encoding.md R72). -/
structure OpRow where
  pattern : Word
  mask : Word
  deriving DecidableEq, Repr

/-- "A word W is the command of a row exactly when (W and mask) = match" (30_encoding.md R72). -/
def OpRow.hits (r : OpRow) (w : Word) : Bool := w &&& r.mask == r.pattern

/-- The KEYLD row of R72. -/
def rowKeyld : OpRow := ⟨0x10000000#32, 0xFFFFFF00#32⟩
/-- The IVLD row of R72. -/
def rowIvld : OpRow := ⟨0x20000000#32, 0xFFFFFFFF#32⟩
/-- The IVCLR row of R72. -/
def rowIvclr : OpRow := ⟨0x30000000#32, 0xFFFFFFFF#32⟩
/-- The START row of R72. -/
def rowStart : OpRow := ⟨0x40000000#32, 0xF1000000#32⟩
/-- The BLK row of R72. -/
def rowBlk : OpRow := ⟨0x50000000#32, 0xFFFFFFFF#32⟩
/-- The ERRCLR row of R72. -/
def rowErrclr : OpRow := ⟨0x60000000#32, 0xFFFFFFFF#32⟩

/-- The whole opcode map, in the order of R72. -/
def opRows : List OpRow := [rowKeyld, rowIvld, rowIvclr, rowStart, rowBlk, rowErrclr]

/-- `W[31:28]`, the opcode (30_encoding.md R70). -/
def opcodeField (w : Word) : BitVec 4 := w.extractLsb 31 28
/-- `n = W[7:0]` (30_encoding.md R73). -/
def nField (w : Word) : BitVec 8 := w.extractLsb 7 0
/-- `mode = W[27:26]` (30_encoding.md R73). -/
def modeField (w : Word) : BitVec 2 := w.extractLsb 27 26
/-- `dir = W[25]`: 0 is encrypt, 1 is decrypt (30_encoding.md R73, R76). -/
def dirField (w : Word) : Dir := if w.getLsbD 25 then .dec else .enc
/-- `len = W[23:0]`, a byte count (30_encoding.md R73). -/
def lenField (w : Word) : Len := w.extractLsb 23 0

/-- Why a word is reserved (30_encoding.md R80); every reserved word fails alike, with BadCommand. -/
inductive Reserved where
  /-- Opcode nibble 0 or 7 to 15. -/
  | opcode (nibble : BitVec 4)
  /-- An opcode of R72 with a non-zero bit where R71 says 0. -/
  | zeroField (nibble : BitVec 4)
  deriving DecidableEq, Repr

/-- The name under which a word that hits no row is rejected (30_encoding.md R80). -/
def whyReserved (w : Word) : Reserved :=
  if opcodeField w = 0#4 ∨ 7#4 ≤ opcodeField w then .opcode (opcodeField w)
  else .zeroField (opcodeField w)

/-- `decode(W)`: it tests the rows of R72 and looks at nothing but the word (30_encoding.md R77). -/
def decode (w : Word) : Except Reserved Instr :=
  if rowKeyld.hits w then .ok (.keyld (nField w))
  else if rowIvld.hits w then .ok .ivld
  else if rowIvclr.hits w then .ok .ivclr
  else if rowStart.hits w then .ok (.start (modeField w) (dirField w) (lenField w))
  else if rowBlk.hits w then .ok .blk
  else if rowErrclr.hits w then .ok .errclr
  else .error (whyReserved w)

/-- `plen(W)`: the payload length, from the opcode nibble and, for opcode 1, the low byte, and from nothing else (30_encoding.md R74). -/
def plen (w : Word) (B : Nat := Config.B) : Nat :=
  if opcodeField w = 1#4 then (nField w).toNat
  else if opcodeField w = 2#4 ∨ opcodeField w = 5#4 then B
  else 0

/-- The `dir` bit of a direction (30_encoding.md R76). -/
def Dir.bit : Dir → BitVec 1
  | .enc => 0#1
  | .dec => 1#1

/-- Format Z: opcode, then 28 zero bits (30_encoding.md R71). -/
def formatZ (op : BitVec 4) : Word := op ++ 0#28

/-- Format K: opcode, 20 zero bits, `n` (30_encoding.md R71). -/
def formatK (op : BitVec 4) (n : BitVec 8) : Word := op ++ 0#20 ++ n

/-- Format S: opcode, `mode`, `dir`, a zero bit, `len` (30_encoding.md R71). -/
def formatS (op : BitVec 4) (mode : BitVec 2) (dir : BitVec 1) (len : Len) : Word := op ++ mode ++ dir ++ 0#1 ++ len

/-- The command word of an instruction (30_encoding.md R71, R72). -/
def encode : Instr → Word
  | .keyld n => formatK 0x1#4 n
  | .ivld => formatZ 0x2#4
  | .ivclr => formatZ 0x3#4
  | .start mode dir len => formatS 0x4#4 mode dir.bit len
  | .blk => formatZ 0x5#4
  | .errclr => formatZ 0x6#4

/-- The host move that issues a command: its word with its payload (30_encoding.md R70). -/
def Command.move (c : Command) : HostMove := .issue (encode c.instr) c.payload

/-- The command word whose bits, numbered as spec/opcode_table.json numbers them, are the low `nbits` bits of `w`; all higher bits are 0.
One 32-bit word is the longest instruction (30_encoding.md R81; entry 13). -/
def tableWord (nbits w : Nat) : Word := BitVec.ofNat 32 (w % 2 ^ nbits)

/-- What the decoder reads from an opcode-table word. -/
def decodeTableWord (nbits w : Nat) : Option Instr :=
  match decode (tableWord nbits w) with
  | .ok i => some i
  | .error _ => none

end Sys2Proof
end

