-- ==== Sys2Proof/Machine/State.lean ====
section
/-! DEFINITION. The machine's state: the eleven elements of 10_state.md R20 and, beside them, what stands on the six ports of 20_memory.md R51; the reasons a step can stop; the state after reset. -/

namespace Sys2Proof.Machine

/-- The engine's state over blocks of `B` bytes: the eleven elements of 10_state.md R20 "and nothing else". -/
structure Elements (B : Nat := Config.B) where
  /-- KEY (R21). -/
  key : Block B
  /-- KEYV: KEY holds an accepted key (R22). -/
  keyv : Bool
  /-- IV (R23). -/
  iv : Block B
  /-- IVV: an IV is present (R23). -/
  ivv : Bool
  /-- CHAIN: the ChainState of the open CBC operation (R24). -/
  chain : Block B
  /-- BUSY: an operation is open (R26). -/
  busy : Bool
  /-- MODE: 0 is ECB, 1 is CBC (R27). -/
  mode : Mode
  /-- DIR: 0 is encrypt, 1 is decrypt (R27). -/
  dir : Dir
  /-- NBLK: number of blocks of the open operation (R28). -/
  nblk : Len
  /-- IDX: index of the next block (R28). -/
  idx : Len
  /-- ERR: code of the most recent failed command, 0 if none (R29). -/
  err : BitVec 8
  deriving DecidableEq, Repr

/-- One answer of the engine: the response word on RSP and, exactly when `RSP[30] = 1`, the output block on DOUT (20_memory.md R51; 30_encoding.md R78). -/
structure Response (B : Nat := Config.B) where
  word : Word
  block : Option (Block B)
  deriving DecidableEq, Repr

/-- The seven errors the engine raises (60_exceptions.md R191); LengthMismatch and LookupMiss are never raised and have no constructor (R192). -/
inductive Err where
  | invalidKeyLength | shortInput | misalignedInput | missingIV | unknownMode | badCommand | badSequence
  deriving DecidableEq, Repr

/-- What the moves at hand amount to for the engine, before it does anything (20_memory.md R55, R65; 70_reset_and_hazards.md R231; entry 3). -/
inductive PortEvent where
  /-- No complete command and no reset is at hand. -/
  | wait
  /-- Reset is asserted; the moves after it. -/
  | reset (rest : List HostMove)
  /-- A command word with its whole payload; the moves after it. -/
  | command (word : Word) (payload : List Byte) (rest : List HostMove)
  /-- The first move is no command and no reset. -/
  | illFramed
  deriving DecidableEq, Repr

/-- The machine: the engine's elements, the host's moves still to come, and the ports' data.
The fields beside `Elements` are the model's own, not the spec's (entries 1, 4, 5, 12).
It is a family over the block size (00_scope.md R4); `State` alone is this hardware's. -/
structure State (B : Nat := Config.B) extends Elements B where
  /-- What the host does next on CMD with DIN, and on RST, first move first (20_memory.md R60; 70_reset_and_hazards.md R231). -/
  moves : List HostMove
  /-- DIN: the payload of the command being executed; empty between steps (20_memory.md R55, R56). -/
  din : List Byte
  /-- RSP and DOUT: every answer delivered so far, oldest first (20_memory.md R61). -/
  rsp : List (Response B)
  deriving DecidableEq, Repr

/-- There is no fault: an error of the engine "is an ordinary, total outcome of the step function" (60_exceptions.md R190; entry 11). Nothing raises one; safe. -/
inductive Fault
  deriving DecidableEq, Repr

/-- Why the model does not step. -/
inductive Refusal where
  /-- Raised by an arm of exec for an instruction without a meaning. No arm does. Safe. -/
  | notModelled (mnemonic : String)
  /-- Raised by the step for a host move that is no command, because its payload has not the length 30_encoding.md R74 demands (93_implementation_defined.md U11, U14; entry 3), and by a meaning that is handed such a payload. Safe. -/
  | illFramed
  deriving DecidableEq, Repr

/-- Every element is zero (10_state.md R38). -/
def Elements.reset {B : Nat} : Elements B where
  key := Block.zeros
  keyv := false
  iv := Block.zeros
  ivv := false
  chain := Block.zeros
  busy := false
  mode := .ecb
  dir := .enc
  nblk := 0#24
  idx := 0#24
  err := 0#8

/-- The machine over blocks of `B` bytes right after reset (10_state.md R38), with no host move to come and no answer given yet (DESIGN CHOICE; entry 12). -/
def State.resetOf (B : Nat) : State B where
  toElements := Elements.reset
  moves := []
  din := []
  rsp := []

/-- This hardware right after reset (10_state.md R38; 00_scope.md R4). -/
def State.reset : State := State.resetOf Config.B

end Sys2Proof.Machine
end

