-- ==== Sys2Proof/Machine/Operands.lean ====
section
/-! DEFINITION. Operands and data: the mode field's meaning, the payload as a block, blocks of a buffer, XOR, the tests on lengths, and the lanes of a wide port. -/

namespace Sys2Proof.Machine

variable {B : Nat}

/-- The mode a `mode` field names: 0 ECB, 1 CBC; 2 and 3 are unknown modes (30_encoding.md R75). -/
def modeOf (mode : BitVec 2) : Option Mode :=
  if mode = 0#2 then some .ecb
  else if mode = 1#2 then some .cbc
  else none

/-- `Payload()` as a Block: only a byte sequence of length exactly `B` is one (00_scope.md R12; 20_memory.md R55). -/
def blockOf (l : List Byte) : Option (Block B) :=
  if h : l.length = B then some ⟨l.toArray, by simpa using h⟩ else none

/-- `a XOR b`: byte j is `a[j] xor b[j]` (00_scope.md R11; 41_operation_commands.md R137). -/
def xorBlock (a b : Block B) : Block B :=
  ⟨(List.zipWith (· ^^^ ·) a.toList b.toList).toArray, by simp⟩

/-- The bytes `buf[i*B : (i+1)*B)` (00_scope.md R12). -/
def blkBytes (buf : List Byte) (i : Nat) (B : Nat := Config.B) : List Byte := (buf.drop (i * B)).take B

/-- `blk(buf, i)`: block i of a buffer, none where the buffer has no such whole block (00_scope.md R12). -/
def blk (buf : List Byte) (i : Nat) (B : Nat := Config.B) : Option (Block B) := blockOf (blkBytes buf i B)

/-- `len < B` (41_operation_commands.md R124, R136). -/
def lenShort (len : Len) (B : Nat := Config.B) : Bool := len.toNat < B

/-- `len mod B != 0` (41_operation_commands.md R125, R136). -/
def lenMisaligned (len : Len) (B : Nat := Config.B) : Bool := len.toNat % B != 0

/-- `len / B` (41_operation_commands.md R127, R136). -/
def blockCount (len : Len) (B : Nat := Config.B) : Len := BitVec.ofNat 24 (len.toNat / B)

/-- Payload bytes carried side by side on a wide DIN or DOUT, read as one number: byte j of the beat occupies bits [8j+7 : 8j] (20_memory.md R53). -/
def beat : List Byte → Nat
  | [] => 0
  | b :: l => b.toNat + 2 ^ 8 * beat l

end Sys2Proof.Machine
end

