-- ==== Sys2Proof/Machine/Ops.lean ====
section
/-! DEFINITION. The shared operations: error codes and response words, answering, taking an error (the engine's one kind of exception), the writes of the registers, reset, and taking the next host move off the ports. -/

namespace Sys2Proof.Machine

variable {B : Nat}

/-- What one command does. -/
abbrev Result (B : Nat := Config.B) : Type := Host.Outcome (State B) Fault Refusal

/-- The code of an error (60_exceptions.md R191). -/
def Err.code : Err → BitVec 8
  | .invalidKeyLength => 1#8
  | .shortInput => 2#8
  | .misalignedInput => 3#8
  | .missingIV => 4#8
  | .unknownMode => 7#8
  | .badCommand => 8#8
  | .badSequence => 9#8

/-- `OK` (30_encoding.md R78). -/
def okWord : Word := 0x00000000#32
/-- `OKDATA` (30_encoding.md R78). -/
def okDataWord : Word := 0x40000000#32
/-- `OKLAST` (30_encoding.md R78). -/
def okLastWord : Word := 0x60000000#32
/-- `ERR(c)`, the word 0x80000000 + c (30_encoding.md R78). -/
def errWord (c : BitVec 8) : Word := 0x80000000#32 + c.setWidth 32

/-- ERRB, bit 31 of a response (30_encoding.md R78). -/
def Response.errb (r : Response B) : Bool := r.word.getLsbD 31
/-- DATA, bit 30 of a response (30_encoding.md R78). -/
def Response.data (r : Response B) : Bool := r.word.getLsbD 30
/-- LAST, bit 29 of a response (30_encoding.md R78). -/
def Response.last (r : Response B) : Bool := r.word.getLsbD 29
/-- CODE, bits 7:0 of a response (30_encoding.md R78). -/
def Response.code (r : Response B) : BitVec 8 := r.word.extractLsb 7 0

/-- `Respond(w)`, with `Emit(b)` where a block goes with it: the answer is delivered whole and the command's payload is consumed (30_encoding.md R78; 20_memory.md R56, R61). -/
def State.respond (s : State B) (r : Response B) : State B := { s with rsp := s.rsp ++ [r], din := [] }

/-- Success without a block. -/
def respondOk (s : State B) : Result B := .next (s.respond ⟨okWord, none⟩)

/-- `raise X`, TAKING AN ERROR: ERR takes the code, the response carries it, the payload is consumed, and nothing else changes (60_exceptions.md R195).
There is no handler, saved context or mode to enter, and so nothing to return from (R195, R201). -/
def raise (x : Err) (s : State B) : Result B :=
  .next (State.respond { s with err := x.code } ⟨errWord x.code, none⟩)

/-- The writes of an accepted KEYLD (40_setup_commands.md R100). -/
def State.loadKey (s : State B) (k : Block B) : State B := { s with key := k, keyv := true }

/-- The writes of an accepted IVLD (40_setup_commands.md R101). -/
def State.loadIv (s : State B) (v : Block B) : State B := { s with iv := v, ivv := true }

/-- The writes of an accepted IVCLR (40_setup_commands.md R102). -/
def State.clearIv (s : State B) : State B := { s with iv := Block.zeros, ivv := false }

/-- The write of ERRCLR (40_setup_commands.md R103). -/
def State.clearErr (s : State B) : State B := { s with err := 0#8 }

/-- The chain an accepted START begins with: the IV for CBC, zeros for ECB (41_operation_commands.md R122, R126). -/
def firstChain (mode : Mode) (iv : Block B) : Block B :=
  match mode with
  | .ecb => Block.zeros
  | .cbc => iv

/-- The writes of an accepted START (41_operation_commands.md R122, R128). -/
def State.openOperation (s : State B) (mode : Mode) (dir : Dir) (len : Len) : State B :=
  { s with busy := true, mode := mode, dir := dir, nblk := blockCount len B, idx := 0#24, chain := firstChain mode s.iv }

/-- The writes of the BLK that processes the last block (41_operation_commands.md R134). -/
def State.closeOperation (s : State B) : State B :=
  { s with busy := false, mode := .ecb, dir := .enc, nblk := 0#24, idx := 0#24, chain := Block.zeros }

/-- The writes of a BLK that leaves the operation open (41_operation_commands.md R129). -/
def State.advance (s : State B) (chain : Block B) : State B := { s with idx := s.idx + 1#24, chain := chain }

/-- Whether the block being processed is the last, `IDX + 1 = NBLK` over the natural numbers (41_operation_commands.md R129, R136; entry 10). -/
def State.atLast (s : State B) : Bool := s.idx.toNat + 1 == s.nblk.toNat

/-- Reset: every element is written to zero; no response, and what was answered stays with the host (70_reset_and_hazards.md R230, R232). -/
def State.hostReset (s : State B) : State B :=
  { s with
    key := Block.zeros, keyv := false, iv := Block.zeros, ivv := false, chain := Block.zeros, busy := false,
    mode := .ecb, dir := .enc, nblk := 0#24, idx := 0#24, err := 0#8, din := [] }

/-- Taking a host move off the ports: the moves that remain, and the payload on DIN (20_memory.md R55). -/
def State.present (s : State B) (rest : List HostMove) (payload : List Byte) : State B :=
  { s with moves := rest, din := payload }

/-- A host move that is a command with its whole payload, or reset (20_memory.md R55). -/
def framed (m : HostMove) (B : Nat := Config.B) : Bool :=
  match m with
  | .issue w p => p.length == plen w B
  | .reset => true

/-- What the moves at hand amount to (entry 3). A command is issued only with its whole payload of `plen` bytes (20_memory.md R55).
A host that has presented fewer bytes has not issued it: the engine waits (R55, R65), and a reset forgets it (70_reset_and_hazards.md R231).
Anything else is no command (93_implementation_defined.md U11, U14). -/
def takeMove (ms : List HostMove) (B : Nat := Config.B) : PortEvent :=
  match ms with
  | [] => .wait
  | .reset :: rest => .reset rest
  | .issue w p :: rest =>
    if p.length = plen w B then .command w p rest
    else if plen w B < p.length then .illFramed
    else
      match rest with
      | [] => .wait
      | .reset :: rest' => .reset rest'
      | .issue _ _ :: _ => .illFramed

/-- A command whose whole payload has been presented, over the meanings `ex` of the instructions: decode first, and a reserved word fails with BadCommand whatever the state (40_setup_commands.md R104; 60_exceptions.md R197). -/
def runWord (ex : Instr → State B → Result B) (w : Word) (s : State B) : Result B :=
  match decode w with
  | .ok i => ex i s
  | .error _ => raise .badCommand s

/-- One step over the meanings `ex` of the instructions (00_scope.md R10; 70_reset_and_hazards.md R231): a complete command is executed, reset is performed, and with neither at hand the engine stays as it is (20_memory.md R65; entry 2). -/
def stepWith (ex : Instr → State B → Result B) (s : State B) : Result B :=
  match takeMove s.moves B with
  | .wait => .next s
  | .reset rest => .next (State.hostReset (s.present rest []))
  | .command w p rest => runWord ex w (s.present rest p)
  | .illFramed => .refused .illFramed

end Sys2Proof.Machine
end

