-- ==== Sys2Proof/Machine/Operation.lean ====
section
/-! DEFINITION. The operation commands START and BLK (41_operation_commands.md), BLK over any block primitive and then over the machine's. -/

namespace Sys2Proof.Machine

variable {B : Nat}

/-- START (41_operation_commands.md R122): the tests in the order of R122 and 60_exceptions.md R200, the first that fails decides. -/
def execStart (mode : BitVec 2) (dir : Dir) (len : Len) (s : State B) : Result B :=
  if s.busy then raise .badSequence s
  else
    match modeOf mode with
    | none => raise .unknownMode s
    | some m =>
      if !s.keyv then raise .invalidKeyLength s
      else if lenShort len B then raise .shortInput s
      else if lenMisaligned len B then raise .misalignedInput s
      else if m = .cbc ∧ s.ivv = false then raise .missingIV s
      else respondOk (s.openOperation m dir len)

/-- The output block of a BLK: the four block transforms (41_operation_commands.md R130 to R133). -/
def outputBlock (P : Primitive B) (mode : Mode) (dir : Dir) (key chain x : Block B) : Block B :=
  match mode, dir with
  | .ecb, .enc => P.E key x
  | .ecb, .dec => P.D key x
  | .cbc, .enc => P.E key (xorBlock x chain)
  | .cbc, .dec => xorBlock (P.D key x) chain

/-- The chain after a BLK that leaves the operation open: the output block when encrypting in CBC, the input block when decrypting in CBC, the old chain in ECB (41_operation_commands.md R129 to R133). -/
def nextChain (mode : Mode) (dir : Dir) (chain x y : Block B) : Block B :=
  match mode, dir with
  | .ecb, _ => chain
  | .cbc, .enc => y
  | .cbc, .dec => x

/-- An in-sequence BLK with input block `x` over the primitive `P`: it answers the output block and closes the operation with the last one (41_operation_commands.md R129, R134). -/
def processBlock (P : Primitive B) (x : Block B) (s : State B) : State B :=
  let y := outputBlock P s.mode s.dir s.key s.chain x
  if s.atLast then s.closeOperation.respond ⟨okLastWord, some y⟩
  else (s.advance (nextChain s.mode s.dir s.chain x y)).respond ⟨okDataWord, some y⟩

/-- BLK over a block primitive (41_operation_commands.md R129). -/
def blkOver (P : Primitive B) (s : State B) : Result B :=
  if !s.busy then raise .badSequence s
  else
    match blockOf s.din with
    | some x => .next (processBlock P x s)
    | none => .refused .illFramed

/-- BLK over the machine's own primitive (41_operation_commands.md R129; 00_scope.md R7). -/
def execBlk (s : State) : Result := blkOver Config.primitive s

end Sys2Proof.Machine
end

