-- ==== Sys2Proof/Machine/Setup.lean ====
section
/-! DEFINITION. The setup commands KEYLD, IVLD, IVCLR, ERRCLR (40_setup_commands.md). -/

namespace Sys2Proof.Machine

variable {B : Nat}

/-- KEYLD (40_setup_commands.md R100): the sequence is tested first, then the key length. -/
def execKeyld (n : BitVec 8) (s : State B) : Result B :=
  if s.busy then raise .badSequence s
  else if !Config.keyOK n.toNat B then raise .invalidKeyLength s
  else
    match blockOf s.din with
    | some k => respondOk (s.loadKey k)
    | none => .refused .illFramed

/-- IVLD (40_setup_commands.md R101). -/
def execIvld (s : State B) : Result B :=
  if s.busy then raise .badSequence s
  else
    match blockOf s.din with
    | some v => respondOk (s.loadIv v)
    | none => .refused .illFramed

/-- IVCLR (40_setup_commands.md R102). -/
def execIvclr (s : State B) : Result B :=
  if s.busy then raise .badSequence s else respondOk s.clearIv

/-- ERRCLR (40_setup_commands.md R103): it succeeds in every state. -/
def execErrclr (s : State B) : Result B := respondOk s.clearErr

end Sys2Proof.Machine
end

