-- ==== Sys2Proof/Machine/Dispatch.lean ====
section
/-! DEFINITION. One arm per command. -/

namespace Sys2Proof.Machine

def exec (i : Instr) (s : State) : Host.Outcome State Fault Refusal :=
  match i with
  | .keyld n => Sys2Proof.Machine.execKeyld n s
  | .ivld => Sys2Proof.Machine.execIvld s
  | .ivclr => Sys2Proof.Machine.execIvclr s
  | .start mode dir len => Sys2Proof.Machine.execStart mode dir len s
  | .blk => Sys2Proof.Machine.execBlk s
  | .errclr => Sys2Proof.Machine.execErrclr s

end Sys2Proof.Machine
end

