-- ==== Sys2Proof/Machine/Flags.lean ====
section
/-! DEFINITION. The status port: the derived flag ERRF and the three read-only words S0, S1, S2 (10_state.md R29 to R31). -/

namespace Sys2Proof.Machine

variable {B : Nat}

/-- ERRF, the value `ERR != 0` (10_state.md R29). -/
def Elements.errf (e : Elements B) : Bool := e.err != 0#8

/-- The MODE bit: 0 ECB, 1 CBC (10_state.md R27). -/
def modeBit : Mode → Bool
  | .ecb => false
  | .cbc => true

/-- The DIR bit: 0 encrypt, 1 decrypt (10_state.md R27). -/
def dirBit : Dir → Bool
  | .enc => false
  | .dec => true

/-- S0, STATUS: [0] KEYV, [1] IVV, [2] BUSY, [3] MODE, [4] DIR, [5] ERRF, [7:6] 0, [15:8] ERR, [31:16] 0 (10_state.md R30). -/
def Elements.status (e : Elements B) : Word :=
  0#16 ++ e.err ++ 0#2 ++ BitVec.ofBool e.errf ++ BitVec.ofBool (dirBit e.dir) ++ BitVec.ofBool (modeBit e.mode)
    ++ BitVec.ofBool e.busy ++ BitVec.ofBool e.ivv ++ BitVec.ofBool e.keyv

/-- S1, the NBLK word: [23:0] NBLK, [31:24] 0 (10_state.md R30). -/
def Elements.nblkWord (e : Elements B) : Word := 0#8 ++ e.nblk

/-- S2, the IDX word: [23:0] IDX, [31:24] 0 (10_state.md R30). -/
def Elements.idxWord (e : Elements B) : Word := 0#8 ++ e.idx

/-- The status port by word number; there are the three words 0, 1, 2 and no more (10_state.md R30). -/
def Elements.statusPort (e : Elements B) : Nat → Option Word
  | 0 => some e.status
  | 1 => some e.nblkWord
  | 2 => some e.idxWord
  | _ => none

end Sys2Proof.Machine
end

