-- ==== Sys2Proof/Machine/Step.lean ====
section
/-! DEFINITION. One step: the engine takes the next host move. -/

namespace Sys2Proof.Machine

/-- A command word with its whole payload on DIN (40_setup_commands.md R104; 60_exceptions.md R197). -/
def execWord (w : Word) (s : State) : Host.Outcome State Fault Refusal := runWord exec w s

/-- One step of the machine (00_scope.md R10; 70_reset_and_hazards.md R231). -/
def step (s : State) : Host.Outcome State Fault Refusal := stepWith exec s

/-- `s` with the opcode-table word `w`, and a payload of zeros of the length that word demands, as the host's very next move (entry 13). -/
def State.withFetchWord (s : State) (nbits w : Nat) : State :=
  { s with moves := .issue (tableWord nbits w) (List.replicate (plen (tableWord nbits w)) 0#8) :: s.moves }

end Sys2Proof.Machine
end

