-- ==== Sys2Proof/Machine/Buffer.lean ====
section
/-! DEFINITION. Whole-buffer operations: the host that issues the expansion of ENCRYPT or DECRYPT command by command and stops at the first error response (30_encoding.md R83; 42_buffer_operations.md R160), over blocks of any size and, with them, over any step. -/

namespace Sys2Proof.Machine

variable {B : Nat}

/-- The outcome of a run (42_buffer_operations.md R160). -/
inductive RunOutcome where
  | error (code : BitVec 8)
  | output (out : List Byte)
  deriving DecidableEq, Repr

/-- `KEYLD k` (30_encoding.md R82).
DESIGN CHOICE (entry 15): for a key of more than 255 bytes, which has no word, the word declares the length modulo 2^8. -/
def keyldMove (k : List Byte) : HostMove := Command.move ⟨.keyld (BitVec.ofNat 8 k.length), k⟩

/-- `IVLD v` when `v` is present, `IVCLR` when it is absent (42_buffer_operations.md R160). -/
def ivMove : Option (Block B) → HostMove
  | some v => Command.move ⟨.ivld, v.toList⟩
  | none => Command.move ⟨.ivclr, []⟩

/-- `START m, d, len` (30_encoding.md R82).
DESIGN CHOICE (entry 15): for a length of 2^24 or more, which has no word, the word states the length modulo 2^24. -/
def startMove (m : BitVec 2) (d : Dir) (len : Nat) : HostMove := Command.move ⟨.start m d (BitVec.ofNat 24 len), []⟩

/-- `BLK x` (30_encoding.md R82). -/
def blkMove (x : List Byte) : HostMove := Command.move ⟨.blk, x⟩

/-- The `floor(len / B)` BLK commands of a buffer, in buffer order (30_encoding.md R83). -/
def blkMoves (buf : List Byte) (B : Nat := Config.B) : List HostMove :=
  (List.range (buf.length / B)).map fun i => blkMove (blkBytes buf i B)

/-- START and the BLKs of one operation over a buffer. -/
def operationMoves (m : BitVec 2) (d : Dir) (buf : List Byte) (B : Nat := Config.B) : List HostMove :=
  startMove m d buf.length :: blkMoves buf B

/-- The commands of `Run(m, d, k, v, buf)` (42_buffer_operations.md R160).
Outside R160's domain, keys of 0 to 255 bytes and buffers of fewer than 2^24 bytes, they are the model's choice (entry 15). -/
def runMoves (m : BitVec 2) (d : Dir) (k : List Byte) (v : Option (Block B)) (buf : List Byte) : List HostMove :=
  keyldMove k :: ivMove v :: operationMoves m d buf B

/-- The bytes DOUT carries with a response. -/
def Response.bytes (r : Response B) : List Byte :=
  match r.block with
  | some b => b.toList
  | none => []

/-- The host issues the moves one at a time to an engine that steps by `st`, and stops at the first response with ERRB = 1; `out` is the output so far (42_buffer_operations.md R160).
A move's response is the one its own step adds to `rsp` (20_memory.md R61), never an earlier one. None when a step stops, which no command does.
DESIGN CHOICE (entry 17), since R160 drives commands only: a reset, which gives no response (70_reset_and_hazards.md R230), adds no output and the driving goes on; any other move without a response, a payload cut short, gives none. -/
def driveWith (st : State B → Result B) (s : State B) (out : List Byte) : List HostMove → Option (RunOutcome × State B)
  | [] => some (.output out, s)
  | m :: ms =>
    match st { s with moves := [m] } with
    | .next t =>
      match t.rsp.drop s.rsp.length with
      | r :: _ => if r.errb then some (.error r.code, t) else driveWith st t (out ++ r.bytes) ms
      | [] => if m = .reset then driveWith st t out ms else none
    | .fault _ => none
    | .refused _ => none

/-- `driveWith` on this machine (42_buffer_operations.md R160). -/
def drive (s : State) (out : List Byte) (ms : List HostMove) : Option (RunOutcome × State) := driveWith step s out ms

/-- `Run(m, d, k, v, buf)` from the state `s` of an engine that steps by `st`, with the state it ends in (42_buffer_operations.md R160). -/
def runWith (st : State B → Result B) (s : State B) (m : BitVec 2) (d : Dir) (k : List Byte) (v : Option (Block B)) (buf : List Byte) :
    Option (RunOutcome × State B) :=
  driveWith st s [] (runMoves m d k v buf)

/-- `Run(m, d, k, v, buf)` on this machine (42_buffer_operations.md R160). -/
def run (s : State) (m : BitVec 2) (d : Dir) (k : List Byte) (v : Option Block) (buf : List Byte) :
    Option (RunOutcome × State) :=
  runWith step s m d k v buf

/-- `ENCRYPT m, k, v, buf` (42_buffer_operations.md R160). -/
def encryptBuffer (s : State) (m : BitVec 2) (k : List Byte) (v : Option Block) (buf : List Byte) :
    Option (RunOutcome × State) :=
  run s m .enc k v buf

/-- `DECRYPT m, k, v, buf` (42_buffer_operations.md R160). -/
def decryptBuffer (s : State) (m : BitVec 2) (k : List Byte) (v : Option Block) (buf : List Byte) :
    Option (RunOutcome × State) :=
  run s m .dec k v buf

/-- The outcome of a run by cases, first matching row (the table of 42_buffer_operations.md R161); none where the run is accepted. -/
def runError (m : BitVec 2) (k : List Byte) (v : Option (Block B)) (buf : List Byte) : Option Err :=
  if k.length ≠ B then some .invalidKeyLength
  else if modeOf m = none then some .unknownMode
  else if buf.length < B then some .shortInput
  else if buf.length % B ≠ 0 then some .misalignedInput
  else if modeOf m = some .cbc ∧ v = none then some .missingIV
  else none

/-- `prev` of a CBC buffer: the IV for block 0, the previous block of `buf` otherwise (42_buffer_operations.md R164, R165). -/
def cbcPrev (v : Block B) (buf : List Byte) : Nat → Option (Block B)
  | 0 => some v
  | i + 1 => blk buf i B

end Sys2Proof.Machine
end

