-- ==== Sys2Proof/Machine/Assembler.lean ====
section
/-! DEFINITION. The assembler syntax of 30_encoding.md R82 and the pseudo-instructions of R83: a line of text, the line it spells, the host moves it stands for. -/

namespace Sys2Proof.Machine

variable {B : Nat}

/-- A line of the table of R82, or a pseudo-instruction of R83. Numbers are as written; whether they fit is `assemble`'s test. -/
inductive AsmLine where
  | keyld (key : List Byte)
  | ivld (iv : List Byte)
  | ivclr
  | start (mode : BitVec 2) (dir : Dir) (len : Nat)
  | blk (x : List Byte)
  | errclr
  | word (w : Nat) (payload : List Byte)
  | encrypt (mode : BitVec 2) (key : List Byte) (iv : Option (List Byte)) (buf : List Byte)
  | decrypt (mode : BitVec 2) (key : List Byte) (iv : Option (List Byte)) (buf : List Byte)
  deriving DecidableEq, Repr

/-- An IV operand, `-` for none: an IV that is not B bytes long cannot be encoded (R82, R83). -/
def ivOperand : Option (List Byte) → Option (Option (Block B))
  | none => some none
  | some l => (blockOf l).map some

/-- The moves of a pseudo-instruction (R83). -/
def assembleRun (mode : BitVec 2) (dir : Dir) (key : List Byte) (iv : Option (List Byte)) (buf : List Byte) (B : Nat := Config.B) :
    Option (List HostMove) :=
  match (ivOperand iv : Option (Option (Block B))) with
  | some v => if key.length < 256 ∧ buf.length < 2 ^ 24 then some (runMoves mode dir key v buf) else none
  | none => none

/-- The words and payloads of a line; none where the assembler refuses it (R82).
DESIGN CHOICE (entry 14): `.word <w>` without bytes is refused where plen(w) is not 0. R82's row gives that line no payload and leaves open what it is for such a word; a word without the payload it asks for is no command (20_memory.md R55). -/
def assemble (line : AsmLine) (B : Nat := Config.B) : Option (List HostMove) :=
  match line with
  | .keyld key => if key.length < 256 then some [keyldMove key] else none
  | .ivld iv => if iv.length = B then some [.issue (encode .ivld) iv] else none
  | .ivclr => some [.issue (encode .ivclr) []]
  | .start mode dir len => if len < 2 ^ 24 then some [startMove mode dir len] else none
  | .blk x => if x.length = B then some [blkMove x] else none
  | .errclr => some [.issue (encode .errclr) []]
  | .word w payload =>
    if w < 2 ^ 32 ∧ payload.length = plen (BitVec.ofNat 32 w) B then some [.issue (BitVec.ofNat 32 w) payload] else none
  | .encrypt mode key iv buf => assembleRun mode .enc key iv buf B
  | .decrypt mode key iv buf => assembleRun mode .dec key iv buf B

/-- White space: the space and the tab (entry 14). -/
def isBlank (c : Char) : Bool := c == ' ' || c == '\t'

/-- A text without the white space at its ends. -/
def trim (cs : List Char) : List Char := ((cs.dropWhile isBlank).reverse.dropWhile isBlank).reverse

/-- The value of a digit, hexadecimal in either case (entry 14). -/
def digitValue (c : Char) : Option Nat :=
  if '0' ≤ c ∧ c ≤ '9' then some (c.toNat - 48)
  else if 'a' ≤ c ∧ c ≤ 'f' then some (c.toNat - 87)
  else if 'A' ≤ c ∧ c ≤ 'F' then some (c.toNat - 55)
  else none

/-- The number that digits of a base spell, most significant first, after the value `acc` of those before them. -/
def digitsValue (base acc : Nat) : List Char → Option Nat
  | [] => some acc
  | c :: cs =>
    match digitValue c with
    | some d => if d < base then digitsValue base (acc * base + d) cs else none
    | none => none

/-- A number, decimal or with `0x` (R82). -/
def parseNumber (cs : List Char) : Option Nat :=
  match cs with
  | [] => none
  | '0' :: 'x' :: c :: rest => digitsValue 16 0 (c :: rest)
  | c :: rest => digitsValue 10 0 (c :: rest)

/-- Two hexadecimal digits a byte, bytes in index order, white space allowed between bytes (R82). -/
def parseBytes : List Char → Option (List Byte)
  | [] => some []
  | [c] => if isBlank c then some [] else none
  | c :: d :: rest =>
    if isBlank c then parseBytes (d :: rest)
    else
      match digitValue c, digitValue d, parseBytes rest with
      | some x, some y, some l => some (BitVec.ofNat 8 (16 * x + y) :: l)
      | _, _, _ => none

/-- `<hex>`; an empty one is written `-` (R82). -/
def parseHex (cs : List Char) : Option (List Byte) :=
  if cs = ['-'] then some [] else if cs = [] then none else parseBytes cs

/-- `<ivhex or ->` (R83). -/
def parseIv (cs : List Char) : Option (Option (List Byte)) :=
  if cs = ['-'] then some none else (parseHex cs).map some

/-- `<mode>`: ECB, CBC, M2 or M3 (R82). -/
def parseMode (cs : List Char) : Option (BitVec 2) :=
  if cs = ['E', 'C', 'B'] then some 0#2
  else if cs = ['C', 'B', 'C'] then some 1#2
  else if cs = ['M', '2'] then some 2#2
  else if cs = ['M', '3'] then some 3#2
  else none

/-- `<dir>`: ENC or DEC (R82). -/
def parseDir (cs : List Char) : Option Dir :=
  if cs = ['E', 'N', 'C'] then some .enc else if cs = ['D', 'E', 'C'] then some .dec else none

/-- The operands between commas. -/
def splitCommas : List Char → List (List Char)
  | [] => [[]]
  | c :: cs =>
    match splitCommas cs with
    | [] => [[c]]
    | l :: ls => if c = ',' then [] :: l :: ls else (c :: l) :: ls

/-- The operands of a pseudo-instruction (R83). -/
def parseRun (line : BitVec 2 → List Byte → Option (List Byte) → List Byte → AsmLine) (ops : List (List Char)) : Option AsmLine :=
  match ops with
  | [m, k, v, b] =>
    match parseMode m, parseHex k, parseIv v, parseHex b with
    | some m, some k, some v, some b => some (line m k v b)
    | _, _, _, _ => none
  | _ => none

/-- A line's operands by its mnemonic (R82). -/
def parseOperands (name : List Char) (ops : List (List Char)) : Option AsmLine :=
  if name = "KEYLD".toList then
    match ops with
    | [h] => (parseHex h).map .keyld
    | _ => none
  else if name = "IVLD".toList then
    match ops with
    | [h] => (parseHex h).map .ivld
    | _ => none
  else if name = "IVCLR".toList then (if ops = [[]] then some .ivclr else none)
  else if name = "START".toList then
    match ops with
    | [m, d, n] =>
      match parseMode m, parseDir d, parseNumber n with
      | some m, some d, some n => some (.start m d n)
      | _, _, _ => none
    | _ => none
  else if name = "BLK".toList then
    match ops with
    | [h] => (parseHex h).map .blk
    | _ => none
  else if name = "ERRCLR".toList then (if ops = [[]] then some .errclr else none)
  else if name = ".word".toList then
    match ops with
    | [w] => (parseNumber w).map fun n => .word n []
    | [w, h] =>
      match parseNumber w, parseHex h with
      | some n, some l => some (.word n l)
      | _, _ => none
    | _ => none
  else if name = "ENCRYPT".toList then parseRun .encrypt ops
  else if name = "DECRYPT".toList then parseRun .decrypt ops
  else none

/-- A line without its comment, which runs from `;` to the end of the line (R82), and without white space around it. -/
def stripLine (cs : List Char) : List Char := trim (cs.takeWhile (· != ';'))

/-- The line a text spells: mnemonic, then operands (R82). -/
def parseLine (cs : List Char) : Option AsmLine :=
  parseOperands ((stripLine cs).takeWhile (!isBlank ·)) ((splitCommas ((stripLine cs).dropWhile (!isBlank ·))).map trim)

/-- The host moves of a line of text; a line with nothing but white space and comment stands for none (R82; entry 14). -/
def assembleText (line : String) (B : Nat := Config.B) : Option (List HostMove) :=
  if stripLine line.toList = [] then some [] else (parseLine line.toList).bind fun l => assemble l B

/-- A program: its lines in order; none where a line is refused (R82: "commands one per line").
DESIGN CHOICE (entry 16): the moves stand in one flat list, with the whole expansion of a pseudo-instruction and no mark of where it ends. R83 stops the expansion at its first error and does not say what becomes of the lines after it. -/
def assembleProgram (lines : List String) (B : Nat := Config.B) : Option (List HostMove) :=
  match lines with
  | [] => some []
  | l :: ls =>
    match assembleText l B, assembleProgram ls B with
    | some a, some b => some (a ++ b)
    | _, _ => none

end Sys2Proof.Machine
end

