-- ==== Sys2Proof/Machine/Family.lean ====
section
/-! DEFINITION. The engine as a family over the block size and the block primitive (00_scope.md R4, R7; 93_implementation_defined.md U1, U2): this hardware is its member at B = 16. -/

namespace Sys2Proof.Machine

variable {B : Nat}

/-- The commands over blocks of `B` bytes and a primitive (00_scope.md R4, R7). -/
def execOver (P : Primitive B) (i : Instr) (s : State B) : Result B :=
  match i with
  | .keyld n => execKeyld n s
  | .ivld => execIvld s
  | .ivclr => execIvclr s
  | .start mode dir len => execStart mode dir len s
  | .blk => blkOver P s
  | .errclr => execErrclr s

/-- One step over blocks of `B` bytes and a primitive (00_scope.md R4, R10). -/
def stepOver (P : Primitive B) (s : State B) : Result B := stepWith (execOver P) s

end Sys2Proof.Machine
end

