-- ==== Sys2Proof/Safety.lean ====
section
/-! DEFINITION. What a safe state and a safe answer are: the idle canonical form (10_state.md R34), the invariants of reachable states (R35), and the response words that ever occur (30_encoding.md R78). -/

namespace Sys2Proof.Machine

variable {B : Nat}

/-- The idle canonical form: MODE, DIR, NBLK, IDX and CHAIN are zero (10_state.md R34). -/
abbrev Elements.IdleForm (e : Elements B) : Prop :=
  e.mode = .ecb ∧ e.dir = .enc ∧ e.nblk = 0#24 ∧ e.idx = 0#24 ∧ e.chain = Block.zeros

/-- The invariants (i) to (vii) of 10_state.md R35, in that order. -/
abbrev Elements.Legal (e : Elements B) : Prop :=
  (e.keyv = false → e.key = Block.zeros) ∧
  (e.ivv = false → e.iv = Block.zeros) ∧
  (e.busy = false → e.IdleForm) ∧
  (e.busy = true → e.keyv = true ∧ 1 ≤ e.nblk.toNat ∧ e.nblk.toNat ≤ Config.NBLKMAX B ∧ e.idx.toNat < e.nblk.toNat) ∧
  (e.busy = true → e.mode = .cbc → e.ivv = true) ∧
  (e.busy = true → e.mode = .ecb → e.chain = Block.zeros) ∧
  (e.err = 0#8 ∨ ∃ x ∈ [Err.invalidKeyLength, .shortInput, .misalignedInput, .missingIV, .unknownMode, .badCommand, .badSequence],
    e.err = x.code)

/-- The response words that ever occur, with a block exactly when DATA = 1 (30_encoding.md R78). -/
abbrev Response.Legal (r : Response B) : Prop :=
  (r.word = okWord ∧ r.block = none) ∨
  (r.word = okDataWord ∧ r.block ≠ none) ∨
  (r.word = okLastWord ∧ r.block ≠ none) ∨
  (∃ c ∈ [1#8, 2#8, 3#8, 4#8, 7#8, 8#8, 9#8], r.word = errWord c ∧ r.block = none)

/-- Every answer given so far is a legal one. -/
abbrev State.AnswersLegal (s : State B) : Prop := ∀ r ∈ s.rsp, r.Legal

/-- Every host move is a command with its whole payload, or reset (20_memory.md R55). -/
abbrev State.Framed (s : State B) : Prop := ∀ m ∈ s.moves, framed m B = true

/-- A safe step: it answers a next state. -/
def SafeStep (s : State) : Prop := ∃ t, step s = .next t

end Sys2Proof.Machine
end

