-- ==== Sys2Proof/Certificates/Slice0/Obligations.lean ====
section
/-! DEFINITION. The statements for the provers, in the order of spec/'s files: encoding, state and status, errors and responses, the six commands, data, whole buffers, assembler. -/

open Sys2Proof Sys2Proof.Machine

-- Encoding

/-- Words written out from the formats of 30_encoding.md R71 and R72 decode to the commands they stand for, and reserved words are rejected: the words are those of its section 6, with the all-zero and the all-ones word of R80.
That a rejected word carries a reason with a name (`zeroField`, `opcode`) is the model's choice of form, entry 9; R77 has one `Reserved`. -/
def Obligations.HandWrittenWordsDecode : Prop :=
  decode 0x10000010#32 = .ok (.keyld 16#8) ∧
  decode 0x20000000#32 = .ok .ivld ∧
  decode 0x30000000#32 = .ok .ivclr ∧
  decode 0x46000020#32 = .ok (.start 1#2 .dec 32#24) ∧
  decode 0x4E000010#32 = .ok (.start 3#2 .dec 16#24) ∧
  decode 0x44FFFFFF#32 = .ok (.start 1#2 .enc 0xFFFFFF#24) ∧
  decode 0x50000000#32 = .ok .blk ∧
  decode 0x60000000#32 = .ok .errclr ∧
  decode 0x41000020#32 = .error (.zeroField 4#4) ∧
  decode 0x50000001#32 = .error (.zeroField 5#4) ∧
  decode 0x00000000#32 = .error (.opcode 0#4) ∧
  decode 0xFFFFFFFF#32 = .error (.opcode 15#4)

/-- Decoding the word of any instruction, with any operands, gives that instruction back (30_encoding.md R71 to R77). -/
def Obligations.DecodeOfEncodeIsTheInstruction : Prop :=
  ∀ i : Instr, decode (encode i) = .ok i

/-- A word that decodes is the word of the instruction it decodes to: each command has one word (30_encoding.md R71, R72, R77). -/
def Obligations.EncodeOfDecodedIsTheWord : Prop :=
  ∀ (w : Word) (i : Instr), decode w = .ok i → encode i = w

/-- At most one row of the opcode map matches a word, and the words that none matches are the ones the decoder rejects (30_encoding.md R72). -/
def Obligations.OpcodeRowsAreDisjoint : Prop :=
  ∀ w : Word,
    opRows.Pairwise (fun a b => ¬(a.hits w = true ∧ b.hits w = true)) ∧
    ((∃ r, decode w = .error r) ↔ ∀ row ∈ opRows, row.hits w = false)

/-- Exactly these words are reserved: opcodes 0 and 7 to 15, and words of opcodes 1 to 6 with a non-zero bit where R71 says 0 (30_encoding.md R80). -/
def Obligations.ReservedWordsAreTheListedOnes : Prop :=
  ∀ w : Word, (∃ r, decode w = .error r) ↔
    (w.toNat / 2 ^ 28 = 0 ∨ 7 ≤ w.toNat / 2 ^ 28 ∨
      (w.toNat / 2 ^ 28 = 1 ∧ w.toNat % 2 ^ 28 / 2 ^ 8 ≠ 0) ∨
      ((w.toNat / 2 ^ 28 = 2 ∨ w.toNat / 2 ^ 28 = 3 ∨ w.toNat / 2 ^ 28 = 5 ∨ w.toNat / 2 ^ 28 = 6) ∧ w.toNat % 2 ^ 28 ≠ 0) ∨
      (w.toNat / 2 ^ 28 = 4 ∧ w.toNat / 2 ^ 24 % 2 = 1))

/-- `plen(W)` is W[7:0] for opcode 1, B for opcodes 2 and 5, and 0 otherwise, whatever the other bits; for a command it is the length its operands ask for (30_encoding.md R74). -/
def Obligations.PayloadLengthOfAWord : Prop :=
  ∀ w : Word,
    plen w = (if w.toNat / 2 ^ 28 = 1 then w.toNat % 2 ^ 8
      else if w.toNat / 2 ^ 28 = 2 ∨ w.toNat / 2 ^ 28 = 5 then 16 else 0) ∧
    ∀ i, decode w = .ok i → plen w = i.payloadLen

/-- Every command word is the sum of 30_encoding.md R82's table, so every operand field lies where R73 says. -/
def Obligations.CommandWordsAreSums : Prop :=
  (∀ n, (encode (.keyld n)).toNat = 0x10000000 + n.toNat) ∧
  (encode .ivld).toNat = 0x20000000 ∧
  (encode .ivclr).toNat = 0x30000000 ∧
  (∀ mode len, (encode (.start mode .enc len)).toNat = 0x40000000 + mode.toNat * 2 ^ 26 + len.toNat) ∧
  (∀ mode len, (encode (.start mode .dec len)).toNat = 0x40000000 + mode.toNat * 2 ^ 26 + 2 ^ 25 + len.toNat) ∧
  (encode .blk).toNat = 0x50000000 ∧
  (encode .errclr).toNat = 0x60000000

-- State, status, reset

/-- After reset every element is zero (10_state.md R38). -/
def Obligations.ResetLeavesEveryElementZero : Prop :=
  (∀ j, (h : j < 16) → State.reset.key[j] = 0#8 ∧ State.reset.iv[j] = 0#8 ∧ State.reset.chain[j] = 0#8) ∧
  State.reset.keyv = false ∧ State.reset.ivv = false ∧ State.reset.busy = false ∧
  State.reset.mode = .ecb ∧ State.reset.dir = .enc ∧
  State.reset.nblk = 0#24 ∧ State.reset.idx = 0#24 ∧ State.reset.err = 0#8

/-- Reset at any step boundary, idle or busy, writes every element to zero, so the status words read 0; it gives no response, and the answers already given stand (70_reset_and_hazards.md R230 to R232). -/
def Obligations.HostResetZeroesEveryElement : Prop :=
  ∀ (s : State) (rest : List HostMove), s.moves = .reset :: rest →
    ∃ t, step s = .next t ∧ t.toElements = State.reset.toElements ∧ t.moves = rest ∧ t.rsp = s.rsp ∧
      t.status = 0#32 ∧ t.nblkWord = 0#32 ∧ t.idxWord = 0#32

/-- The three status words, bit by bit, and no fourth; after reset all three read 0 (10_state.md R30). -/
def Obligations.StatusWordsShowTheElements : Prop :=
  State.reset.status = 0#32 ∧ State.reset.nblkWord = 0#32 ∧ State.reset.idxWord = 0#32 ∧
  ∀ e : Elements,
    e.statusPort 0 = some e.status ∧ e.statusPort 1 = some e.nblkWord ∧ e.statusPort 2 = some e.idxWord ∧
    (∀ n, 3 ≤ n → e.statusPort n = none) ∧
    e.status.getLsbD 0 = e.keyv ∧ e.status.getLsbD 1 = e.ivv ∧ e.status.getLsbD 2 = e.busy ∧
    (e.status.getLsbD 3 = true ↔ e.mode = .cbc) ∧ (e.status.getLsbD 4 = true ↔ e.dir = .dec) ∧
    (e.status.getLsbD 5 = true ↔ e.err ≠ 0#8) ∧
    e.status.getLsbD 6 = false ∧ e.status.getLsbD 7 = false ∧
    (∀ i, i < 8 → e.status.getLsbD (8 + i) = e.err.getLsbD i) ∧
    (∀ i, 16 ≤ i → e.status.getLsbD i = false) ∧
    e.nblkWord.toNat = e.nblk.toNat ∧ e.idxWord.toNat = e.idx.toNat

/-- No status word depends on KEY, IV or CHAIN (10_state.md R37). -/
def Obligations.StatusHidesTheBlockRegisters : Prop :=
  ∀ (e : Elements) (k v c : Block) (n : Nat),
    Elements.statusPort { e with key := k, iv := v, chain := c } n = e.statusPort n

/-- The invariants of 10_state.md R35 hold at reset.
The spec marks R35 "[derived: ...]", a consequence of other rules. -/
def Obligations.LegalAtReset : Prop :=
  State.reset.Legal

/-- Every step keeps the invariants (i) to (vii), from any state that has them, and so every state reachable from reset by any host moves, commands and resets, has them (10_state.md R35).
The spec marks R35 "[derived: ...]", a consequence of other rules. -/
def Obligations.EveryStepKeepsTheElementsLegal : Prop :=
  (∀ s t : State, s.Legal → step s = .next t → t.Legal) ∧
  (∀ (ms : List HostMove) (n : Nat) (t : State),
    Host.Core.run Sys2Proof.core n { State.reset with moves := ms } = .next t → Elements.Legal t.toElements)

/-- Each element is written by no command but those the table of 10_state.md R20 lists, and a command leaves the host's further moves alone.
ERR is written by ERRCLR, and otherwise only by a command whose answer has ERRB = 1 (R29). -/
def Obligations.ElementsAreWrittenOnlyByTheirCommands : Prop :=
  ∀ (i : Instr) (s t : State), exec i s = .next t →
    t.moves = s.moves ∧
    (∃ r, t.rsp = s.rsp ++ [r] ∧ (i ≠ .errclr → r.errb = false → t.err = s.err)) ∧
    ((∀ n, i ≠ .keyld n) → t.key = s.key ∧ t.keyv = s.keyv) ∧
    (i ≠ .ivld → i ≠ .ivclr → t.iv = s.iv ∧ t.ivv = s.ivv) ∧
    ((∀ m d l, i ≠ .start m d l) → i ≠ .blk →
      t.chain = s.chain ∧ t.busy = s.busy ∧ t.mode = s.mode ∧ t.dir = s.dir ∧ t.nblk = s.nblk ∧ t.idx = s.idx)

/-- No command behaves differently because of what ERR holds (10_state.md R29; 60_exceptions.md R201). -/
def Obligations.ErrIsReadByNoCommand : Prop :=
  ∀ (i : Instr) (s t : State) (c : BitVec 8), exec i s = .next t →
    ∃ t', exec i { s with err := c } = .next t' ∧ ({ t' with err := t.err } : State) = t

/-- ECB ignores the IV: START in mode ECB, and BLK, do the same with any IV or none, and leave it as it is (41_operation_commands.md R126). -/
def Obligations.EcbIgnoresTheIv : Prop :=
  ∀ (s t : State) (d : Dir) (len : Len) (v : Block) (b : Bool),
    (exec (.start 0#2 d len) s = .next t →
      exec (.start 0#2 d len) { s with iv := v, ivv := b } = .next { t with iv := v, ivv := b }) ∧
    (exec .blk s = .next t → exec .blk { s with iv := v, ivv := b } = .next { t with iv := v, ivv := b })

-- Steps, responses, errors

/-- A step whose next host move is a command with its whole payload, whose word decodes, runs the decoded instruction, with the move taken off the ports and the payload on DIN (00_scope.md R10; 20_memory.md R55, R60). -/
def Obligations.StepRunsTheDecodedCommand : Prop :=
  ∀ (s : State) (w : Word) (p : List Byte) (rest : List HostMove) (i : Instr),
    s.moves = .issue w p :: rest → p.length = plen w → decode w = .ok i →
    step s = exec i { s with moves := rest, din := p }

/-- A reserved word fails with BadCommand in every state: ERR is 8, the response 0x80000008, the payload is consumed, and nothing else changes (60_exceptions.md R197, R195). -/
def Obligations.ReservedWordFailsWithBadCommand : Prop :=
  ∀ (s : State) (w : Word) (p : List Byte) (rest : List HostMove) (r : Reserved),
    s.moves = .issue w p :: rest → p.length = plen w → decode w = .error r →
    step s = .next { s with err := 8#8, moves := rest, din := [], rsp := s.rsp ++ [⟨0x80000008#32, none⟩] }

/-- With no command complete a step answers the same state, and a command whose payload is only partly presented is forgotten by a reset.
The model's choice: the spec has no step without a command, and that the model answers the same state for one is entry 2 (deduced from "leaves the engine in the state it is in, for ever", 20_memory.md) and, for a short payload, entry 3; that a short payload before a reset and the reset are one step is entry 3 too, where 93_implementation_defined.md U14 would let the model refuse. -/
def Obligations.IncompleteCommandsDoNothing : Prop :=
  ∀ s : State,
    (s.moves = [] → step s = .next s) ∧
    (∀ w p, s.moves = [.issue w p] → p.length < plen w → step s = .next s) ∧
    (∀ w p rest, s.moves = .issue w p :: .reset :: rest → p.length < plen w →
      step s = step { s with moves := .reset :: rest })

/-- A host move with too many payload bytes, or with too few and another command after it, is no command: the model does not step (93_implementation_defined.md U11, U14).
The model's choice of form: entry 3. -/
def Obligations.IllFramedMovesAreRefused : Prop :=
  ∀ (s : State) (w : Word) (p : List Byte) (rest : List HostMove),
    (s.moves = .issue w p :: rest → plen w < p.length → step s = .refused .illFramed) ∧
    (∀ w' p', s.moves = .issue w p :: .issue w' p' :: rest → p.length < plen w → step s = .refused .illFramed)

/-- Every command with its whole payload, in any state, has exactly one outcome and one response; if it fails, ERR takes the response's code and nothing else changes, and if it succeeds, ERR is as it was or, by ERRCLR, 0
(00_scope.md R10; 30_encoding.md R78; 60_exceptions.md R190, R195, R201). -/
def Obligations.EveryCommandIsAnsweredOnce : Prop :=
  ∀ (s : State) (w : Word) (p : List Byte) (rest : List HostMove),
    s.moves = .issue w p :: rest → p.length = plen w →
    ∃ t r, step s = .next t ∧ t.rsp = s.rsp ++ [r] ∧ t.moves = rest ∧ t.din = [] ∧
      (r.errb = true → r.block = none ∧ r.code ≠ 0#8 ∧ t.toElements = { s.toElements with err := r.code }) ∧
      (r.errb = false → r.code = 0#8 ∧ (t.err = s.err ∨ (w = 0x60000000#32 ∧ t.err = 0#8)))

/-- From a state whose host moves are all whole commands or resets, a step answers a next state, and the moves stay such (20_memory.md R55; 60_exceptions.md R190). -/
def Obligations.FramedStatesStepSafely : Prop :=
  ∀ s : State, s.Framed → ∃ t, step s = .next t ∧ t.Framed

/-- The codes of the errors, and their response words field by field (60_exceptions.md R191; 30_encoding.md R78). -/
def Obligations.ErrorCodesAndTheirResponses : Prop :=
  Err.invalidKeyLength.code = 1#8 ∧ Err.shortInput.code = 2#8 ∧ Err.misalignedInput.code = 3#8 ∧ Err.missingIV.code = 4#8 ∧
  Err.unknownMode.code = 7#8 ∧ Err.badCommand.code = 8#8 ∧ Err.badSequence.code = 9#8 ∧
  ∀ c : BitVec 8, (⟨errWord c, none⟩ : Response).errb = true ∧ (⟨errWord c, none⟩ : Response).data = false ∧
    (⟨errWord c, none⟩ : Response).last = false ∧ (⟨errWord c, none⟩ : Response).code = c ∧ (errWord c).toNat = 0x80000000 + c.toNat

/-- The only response words that ever occur are OK, OKDATA, OKLAST and ERR(c) for the seven codes, with a block exactly when DATA = 1: every step keeps it so (30_encoding.md R78). -/
def Obligations.AnswersStayLegal : Prop :=
  (∀ r : Response, r.Legal → (r.data = true ↔ r.block ≠ none)) ∧
  (∀ s t : State, s.AnswersLegal → step s = .next t → t.AnswersLegal)

/-- Which command is in sequence: a whole command is answered BadCommand exactly when its word is reserved, and BadSequence exactly when it is KEYLD, IVLD, IVCLR or START while busy, or BLK while idle; any other command may still fail with one of the codes 1, 2, 3, 4, 7 (60_exceptions.md R199). -/
def Obligations.SequenceTable : Prop :=
  ∀ (s : State) (w : Word) (p : List Byte) (rest : List HostMove),
    s.moves = .issue w p :: rest → p.length = plen w →
    ∃ t r, step s = .next t ∧ t.rsp = s.rsp ++ [r] ∧
      (r.errb = true → r.code ∈ [1#8, 2#8, 3#8, 4#8, 7#8, 8#8, 9#8]) ∧
      (r.word = 0x80000008#32 ↔ ∃ e, decode w = .error e) ∧
      (r.word = 0x80000009#32 ↔
        ((∃ n, decode w = .ok (.keyld n)) ∨ decode w = .ok .ivld ∨ decode w = .ok .ivclr ∨
          ∃ m d l, decode w = .ok (.start m d l)) ∧ s.busy = true ∨
        decode w = .ok .blk ∧ s.busy = false)

/-- The whole transition graph of idle and busy: a step opens an operation only by an accepted START, and leaves the busy state only by the BLK of the last block or by reset (41_operation_commands.md R121). -/
def Obligations.BusyChangesOnlyByStartLastBlockOrReset : Prop :=
  ∀ s t : State, step s = .next t →
    (s.busy = false → t.busy = true →
      ∃ m d len p rest, s.moves = .issue (encode (.start m d len)) p :: rest ∧ m.toNat < 2 ∧ s.keyv = true ∧
        16 ≤ len.toNat ∧ len.toNat % 16 = 0 ∧ (m = 1#2 → s.ivv = true)) ∧
    (s.busy = true → t.busy = false →
      (∃ p rest, s.moves = .issue (encode .blk) p :: rest ∧ s.idx.toNat + 1 = s.nblk.toNat) ∨
      (∃ rest, s.moves = .reset :: rest ∨ ∃ w p, s.moves = .issue w p :: .reset :: rest ∧ p.length < plen w))

-- The setup commands

/-- KEYLD with `n` bytes: BadSequence while busy, else InvalidKeyLength when n is not B, else KEY takes the payload and KEYV is set; nothing else changes (40_setup_commands.md R100). -/
def Obligations.KeyldLoadsTheKey : Prop :=
  (∀ n, (encode (.keyld n)).toNat = 0x10000000 + n.toNat) ∧
  (∀ (s : State) (k : Block), s.busy = false → s.din = k.toList →
    exec (.keyld 16#8) s =
      .next { s with key := k, keyv := true, din := [], rsp := s.rsp ++ [⟨0x00000000#32, none⟩] }) ∧
  (∀ (s : State) (n : BitVec 8), s.busy = true →
    exec (.keyld n) s = .next { s with err := 9#8, din := [], rsp := s.rsp ++ [⟨0x80000009#32, none⟩] }) ∧
  (∀ (s : State) (n : BitVec 8), s.busy = false → n ≠ 16#8 →
    exec (.keyld n) s = .next { s with err := 1#8, din := [], rsp := s.rsp ++ [⟨0x80000001#32, none⟩] })

/-- IVLD: BadSequence while busy, else IV takes the payload and IVV is set; nothing else changes (40_setup_commands.md R101). -/
def Obligations.IvldLoadsTheIv : Prop :=
  (encode .ivld).toNat = 0x20000000 ∧
  (∀ (s : State) (v : Block), s.busy = false → s.din = v.toList →
    exec .ivld s = .next { s with iv := v, ivv := true, din := [], rsp := s.rsp ++ [⟨0x00000000#32, none⟩] }) ∧
  (∀ s : State, s.busy = true →
    exec .ivld s = .next { s with err := 9#8, din := [], rsp := s.rsp ++ [⟨0x80000009#32, none⟩] })

/-- IVCLR: BadSequence while busy, else IV is zeros and IVV is cleared; nothing else changes (40_setup_commands.md R102). -/
def Obligations.IvclrClearsTheIv : Prop :=
  (encode .ivclr).toNat = 0x30000000 ∧
  (∀ s : State, s.busy = false →
    exec .ivclr s =
      .next { s with iv := Vector.replicate 16 0#8, ivv := false, din := [], rsp := s.rsp ++ [⟨0x00000000#32, none⟩] }) ∧
  (∀ s : State, s.busy = true →
    exec .ivclr s = .next { s with err := 9#8, din := [], rsp := s.rsp ++ [⟨0x80000009#32, none⟩] })

/-- ERRCLR succeeds in every state, idle or busy: ERR is 0 and nothing else changes (40_setup_commands.md R103). -/
def Obligations.ErrclrClearsErrInEveryState : Prop :=
  (encode .errclr).toNat = 0x60000000 ∧
  ∀ s : State, exec .errclr s = .next { s with err := 0#8, din := [], rsp := s.rsp ++ [⟨0x00000000#32, none⟩] }

/-- From an idle state a key and an IV may be loaded in either order, and loading either again changes no element (40_setup_commands.md R105).
The spec marks R105 "[derived: ...]", a consequence of other rules. -/
def Obligations.SetupCommandsCommute : Prop :=
  ∀ (s : State) (k v : Block), s.busy = false →
    ∃ a b c d : State,
      drive s [] [keyldMove k.toList, ivMove (some v)] = some (.output [], a) ∧
      drive s [] [ivMove (some v), keyldMove k.toList] = some (.output [], b) ∧
      drive s [] [keyldMove k.toList, keyldMove k.toList, ivMove (some v)] = some (.output [], c) ∧
      drive s [] [keyldMove k.toList, ivMove (some v), ivMove (some v)] = some (.output [], d) ∧
      a.toElements = b.toElements ∧ a.toElements = c.toElements ∧ a.toElements = d.toElements ∧
      a.toElements = { s.toElements with key := k, keyv := true, iv := v, ivv := true }

-- START

/-- START: the first failing test of the list decides the error; when none fails the operation is opened with NBLK = len / B, IDX 0 and the chain IV in CBC, zeros in ECB; nothing else changes (41_operation_commands.md R122). -/
def Obligations.StartOpensAnOperationOrReportsTheFirstFailure : Prop :=
  (∀ mode len, (encode (.start mode .enc len)).toNat = 0x40000000 + mode.toNat * 2 ^ 26 + len.toNat) ∧
  (∀ mode len, (encode (.start mode .dec len)).toNat = 0x40000000 + mode.toNat * 2 ^ 26 + 2 ^ 25 + len.toNat) ∧
  ∀ (s : State) (mode : BitVec 2) (dir : Dir) (len : Len),
    exec (.start mode dir len) s =
      (if s.busy = true then .next { s with err := 9#8, din := [], rsp := s.rsp ++ [⟨0x80000009#32, none⟩] }
      else if 2 ≤ mode.toNat then .next { s with err := 7#8, din := [], rsp := s.rsp ++ [⟨0x80000007#32, none⟩] }
      else if s.keyv = false then .next { s with err := 1#8, din := [], rsp := s.rsp ++ [⟨0x80000001#32, none⟩] }
      else if len.toNat < 16 then .next { s with err := 2#8, din := [], rsp := s.rsp ++ [⟨0x80000002#32, none⟩] }
      else if len.toNat % 16 ≠ 0 then .next { s with err := 3#8, din := [], rsp := s.rsp ++ [⟨0x80000003#32, none⟩] }
      else if mode = 1#2 ∧ s.ivv = false then .next { s with err := 4#8, din := [], rsp := s.rsp ++ [⟨0x80000004#32, none⟩] }
      else .next { s with
        busy := true, mode := if mode = 1#2 then .cbc else .ecb, dir := dir, nblk := BitVec.ofNat 24 (len.toNat / 16),
        idx := 0#24, chain := if mode = 1#2 then s.iv else Vector.replicate 16 0#8, din := [],
        rsp := s.rsp ++ [⟨0x00000000#32, none⟩] })

/-- Where an accepted START completes: idle, a key loaded, a known mode, a positive whole number of blocks, and an IV for CBC (41_operation_commands.md R122, R127, R128; 70_reset_and_hazards.md R234).
The spec marks R127, R128, R234 "[derived: ...]", a consequence of other rules. -/
def Obligations.AcceptedStartCompletes : Prop :=
  ∀ (s : State) (mode : BitVec 2) (dir : Dir) (n : Nat), s.busy = false → mode.toNat < 2 → s.keyv = true →
    1 ≤ n → n ≤ 1048575 → (mode = 1#2 → s.ivv = true) →
    ∃ t, exec (.start mode dir (BitVec.ofNat 24 (n * 16))) s = .next t ∧
      t.busy = true ∧ t.nblk.toNat = n ∧ t.idx = 0#24 ∧ t.dir = dir ∧ (t.mode = .cbc ↔ mode = 1#2) ∧
      t.key = s.key ∧ t.keyv = s.keyv ∧ t.iv = s.iv ∧ t.ivv = s.ivv ∧ t.err = s.err

/-- NBLK is exact and in range, and IDX + 1 never overflows, in any legal state (41_operation_commands.md R127).
The spec marks R127 "[derived: ...]", a consequence of other rules. -/
def Obligations.CountersNeverOverflow : Prop :=
  (∀ (s t : State) (mode : BitVec 2) (dir : Dir) (len : Len), s.busy = false → exec (.start mode dir len) s = .next t →
    t.busy = true → t.nblk.toNat * 16 = len.toNat ∧ 1 ≤ t.nblk.toNat ∧ t.nblk.toNat ≤ 1048575) ∧
  (∀ s t : State, s.Legal → exec .blk s = .next t → t.busy = true →
    t.idx.toNat = s.idx.toNat + 1 ∧ t.nblk = s.nblk ∧ t.idx.toNat < t.nblk.toNat)

-- BLK

/-- ECB, encrypt: the output block is E(KEY, x), CHAIN plays no part (41_operation_commands.md R130, with the closing of R134). -/
def Obligations.BlkEcbEncrypt : Prop :=
  ∀ (s : State) (x : Block), s.busy = true → s.mode = .ecb → s.dir = .enc → s.din = x.toList →
    exec .blk s =
      (if s.idx.toNat + 1 = s.nblk.toNat then
        .next { s with busy := false, mode := .ecb, dir := .enc, nblk := 0#24, idx := 0#24, chain := Vector.replicate 16 0#8,
                       din := [], rsp := s.rsp ++ [⟨0x60000000#32, some (Config.primitive.E s.key x)⟩] }
      else .next { s with idx := s.idx + 1#24, din := [], rsp := s.rsp ++ [⟨0x40000000#32, some (Config.primitive.E s.key x)⟩] })

/-- ECB, decrypt: the output block is D(KEY, x), CHAIN plays no part (41_operation_commands.md R131, with the closing of R134). -/
def Obligations.BlkEcbDecrypt : Prop :=
  ∀ (s : State) (x : Block), s.busy = true → s.mode = .ecb → s.dir = .dec → s.din = x.toList →
    exec .blk s =
      (if s.idx.toNat + 1 = s.nblk.toNat then
        .next { s with busy := false, mode := .ecb, dir := .enc, nblk := 0#24, idx := 0#24, chain := Vector.replicate 16 0#8,
                       din := [], rsp := s.rsp ++ [⟨0x60000000#32, some (Config.primitive.D s.key x)⟩] }
      else .next { s with idx := s.idx + 1#24, din := [], rsp := s.rsp ++ [⟨0x40000000#32, some (Config.primitive.D s.key x)⟩] })

/-- CBC, encrypt: the output block is E(KEY, x XOR CHAIN), and CHAIN takes the output block (41_operation_commands.md R132, with the closing of R134). -/
def Obligations.BlkCbcEncrypt : Prop :=
  ∀ (s : State) (x : Block), s.busy = true → s.mode = .cbc → s.dir = .enc → s.din = x.toList →
    exec .blk s =
      (if s.idx.toNat + 1 = s.nblk.toNat then
        .next { s with busy := false, mode := .ecb, dir := .enc, nblk := 0#24, idx := 0#24, chain := Vector.replicate 16 0#8,
                       din := [], rsp := s.rsp ++ [⟨0x60000000#32, some (Config.primitive.E s.key (xorBlock x s.chain))⟩] }
      else .next { s with idx := s.idx + 1#24, chain := Config.primitive.E s.key (xorBlock x s.chain), din := [],
                          rsp := s.rsp ++ [⟨0x40000000#32, some (Config.primitive.E s.key (xorBlock x s.chain))⟩] })

/-- CBC, decrypt: the output block is D(KEY, x) XOR CHAIN, and CHAIN takes the input block (41_operation_commands.md R133, with the closing of R134). -/
def Obligations.BlkCbcDecrypt : Prop :=
  ∀ (s : State) (x : Block), s.busy = true → s.mode = .cbc → s.dir = .dec → s.din = x.toList →
    exec .blk s =
      (if s.idx.toNat + 1 = s.nblk.toNat then
        .next { s with busy := false, mode := .ecb, dir := .enc, nblk := 0#24, idx := 0#24, chain := Vector.replicate 16 0#8,
                       din := [], rsp := s.rsp ++ [⟨0x60000000#32, some (xorBlock (Config.primitive.D s.key x) s.chain)⟩] }
      else .next { s with idx := s.idx + 1#24, chain := x, din := [],
                          rsp := s.rsp ++ [⟨0x40000000#32, some (xorBlock (Config.primitive.D s.key x) s.chain)⟩] })

/-- BLK while no operation is open fails with BadSequence and changes only ERR (41_operation_commands.md R135 (a)).
The spec marks R135 "[derived: ...]", a consequence of other rules. -/
def Obligations.BlkWhileIdleFails : Prop :=
  ∀ s : State, s.busy = false →
    exec .blk s = .next { s with err := 9#8, din := [], rsp := s.rsp ++ [⟨0x80000009#32, none⟩] }

-- Data

/-- XOR works byte by byte, with the laws of 00_scope.md R11, on byte sequences of any one length. -/
def Obligations.XorIsBytewise : Prop :=
  ∀ n : Nat,
    (∀ (a b : Block n) (j : Nat) (h : j < n), (xorBlock a b)[j] = a[j] ^^^ b[j]) ∧
    (∀ a b : Block n, xorBlock a b = xorBlock b a) ∧ (∀ a b c : Block n, xorBlock (xorBlock a b) c = xorBlock a (xorBlock b c)) ∧
    (∀ a : Block n, xorBlock a a = Vector.replicate n 0#8) ∧ (∀ a : Block n, xorBlock a (Vector.replicate n 0#8) = a)

/-- E(k, ·) and D(k, ·) are inverse bijections of the blocks (00_scope.md R8, R9). It holds of every value the free primitive may have.
The spec marks R8, R9 "[derived: ...]", a consequence of other rules. -/
def Obligations.PrimitiveIsAPermutation : Prop :=
  ∀ k : Block,
    (∀ x, Config.primitive.D k (Config.primitive.E k x) = x) ∧ (∀ y, Config.primitive.E k (Config.primitive.D k y) = y) ∧
    Function.Bijective (Config.primitive.E k)

/-- On a wide port byte j of a beat occupies bits [8j+7 : 8j] (20_memory.md R53). -/
def Obligations.BeatLanes : Prop :=
  ∀ l : List Byte, beat l < 2 ^ (8 * l.length) ∧
    ∀ j, (h : j < l.length) → beat l / 2 ^ (8 * j) % 2 ^ 8 = l[j].toNat

-- Whole buffers

/-- The outcome of a run by cases, first matching row; an accepted run's output is as long as its input (42_buffer_operations.md R161, R166).
The spec marks R161, R166 "[derived: ...]", a consequence of other rules. -/
def Obligations.RunOutcomeByCases : Prop :=
  ∀ (s : State) (m : BitVec 2) (d : Dir) (k : List Byte) (v : Option Block) (buf : List Byte),
    s.busy = false → k.length < 256 → buf.length < 2 ^ 24 →
    ∃ o t, run s m d k v buf = some (o, t) ∧
      (if k.length ≠ 16 then o = .error 1#8
      else if 2 ≤ m.toNat then o = .error 7#8
      else if buf.length < 16 then o = .error 2#8
      else if buf.length % 16 ≠ 0 then o = .error 3#8
      else if m = 1#2 ∧ v = none then o = .error 4#8
      else ∃ out, o = .output out ∧ out.length = buf.length)

/-- ECB encryption: every output block is E of its input block, whatever the IV operand (42_buffer_operations.md R162).
The spec marks R162 "[derived: ...]", a consequence of other rules. -/
def Obligations.EcbEncryptionOfABuffer : Prop :=
  ∀ (s t : State) (k : Block) (v : Option Block) (buf out : List Byte), buf.length < 2 ^ 24 →
    run s 0#2 .enc k.toList v buf = some (.output out, t) →
    (∀ i, blk out i = (blk buf i).map (Config.primitive.E k)) ∧
    ∀ v', ∃ t', run s 0#2 .enc k.toList v' buf = some (.output out, t')

/-- ECB decryption: every output block is D of its input block (42_buffer_operations.md R163).
The spec marks R163 "[derived: ...]", a consequence of other rules. -/
def Obligations.EcbDecryptionOfABuffer : Prop :=
  ∀ (s t : State) (k : Block) (v : Option Block) (buf out : List Byte), buf.length < 2 ^ 24 →
    run s 0#2 .dec k.toList v buf = some (.output out, t) →
    ∀ i, blk out i = (blk buf i).map (Config.primitive.D k)

/-- CBC encryption: C[i] = E(k, P[i] XOR prev), prev the IV for i = 0 and C[i-1] otherwise (42_buffer_operations.md R164).
The spec marks R164 "[derived: ...]", a consequence of other rules. -/
def Obligations.CbcEncryptionOfABuffer : Prop :=
  ∀ (s t : State) (k v : Block) (buf out : List Byte), buf.length < 2 ^ 24 →
    run s 1#2 .enc k.toList (some v) buf = some (.output out, t) →
    ∀ i x, blk buf i = some x →
      ∃ prev, cbcPrev v out i = some prev ∧ blk out i = some (Config.primitive.E k (xorBlock x prev))

/-- CBC decryption: P[i] = D(k, C[i]) XOR prev, prev the IV for i = 0 and C[i-1] otherwise (42_buffer_operations.md R165).
The spec marks R165 "[derived: ...]", a consequence of other rules. -/
def Obligations.CbcDecryptionOfABuffer : Prop :=
  ∀ (s t : State) (k v : Block) (buf out : List Byte), buf.length < 2 ^ 24 →
    run s 1#2 .dec k.toList (some v) buf = some (.output out, t) →
    ∀ i x, blk buf i = some x →
      ∃ prev, cbcPrev v buf i = some prev ∧ blk out i = some (xorBlock (Config.primitive.D k x) prev)

/-- Round trip, in both directions: for any key, any IV (present for CBC) and any buffer, from any idle states, decrypting what was encrypted gives the buffer back, and encrypting what was decrypted too (42_buffer_operations.md R167).
The spec marks R167 "[derived: ...]", a consequence of other rules. -/
def Obligations.RoundTrip : Prop :=
  ∀ (s s' : State) (m : BitVec 2) (k : Block) (v : Option Block) (buf : List Byte) (d d' : Dir),
    s.busy = false → s'.busy = false → m.toNat < 2 → (m = 1#2 → v ≠ none) →
    16 ≤ buf.length → buf.length % 16 = 0 → buf.length < 2 ^ 24 → d ≠ d' →
    ∃ c t t', run s m d k.toList v buf = some (.output c, t) ∧ run s' m d' k.toList v c = some (.output buf, t')

/-- ECB determinism: over any two ECB operations in one direction under one key, two output blocks are equal exactly when their input blocks are (42_buffer_operations.md R168).
The spec marks R168 "[derived: ...]", a consequence of other rules. -/
def Obligations.EcbDeterminism : Prop :=
  ∀ (s s' t t' : State) (d : Dir) (k : Block) (v v' : Option Block) (buf buf' out out' : List Byte),
    buf.length < 2 ^ 24 → buf'.length < 2 ^ 24 →
    run s 0#2 d k.toList v buf = some (.output out, t) → run s' 0#2 d k.toList v' buf' = some (.output out', t') →
    ∀ i j, i < buf.length / 16 → j < buf'.length / 16 → (blk buf i = blk buf' j ↔ blk out i = blk out' j)

/-- CBC diffusion, forward only: blocks before the first changed one keep their ciphertext, the changed one does not, and if it is the only changed one no later one does either (42_buffer_operations.md R169).
The spec marks R169 "[derived: ...]", a consequence of other rules. -/
def Obligations.CbcDiffusion : Prop :=
  ∀ (s s' t t' : State) (k v : Block) (buf buf' out out' : List Byte) (i : Nat),
    buf.length = buf'.length → buf.length < 2 ^ 24 →
    run s 1#2 .enc k.toList (some v) buf = some (.output out, t) →
    run s' 1#2 .enc k.toList (some v) buf' = some (.output out', t') →
    (∀ j < i, blk buf j = blk buf' j) →
    (∀ j < i, blk out j = blk out' j) ∧
    (blk buf i ≠ blk buf' i → blk out i ≠ blk out' i) ∧
    (blk buf i ≠ blk buf' i → (∀ j, i < j → blk buf j = blk buf' j) →
      ∀ j, i ≤ j → j < buf.length / 16 → blk out j ≠ blk out' j)

/-- CBC decryption, local effect: a change of ciphertext block i alone changes plaintext block i, changes block i + 1 by exactly C[i] XOR C'[i], and no other block (42_buffer_operations.md R170).
The spec marks R170 "[derived: ...]", a consequence of other rules. -/
def Obligations.CbcDecryptionLocalEffect : Prop :=
  ∀ (s s' t t' : State) (k v c c' : Block) (buf buf' out out' : List Byte) (i : Nat),
    buf.length = buf'.length → buf.length < 2 ^ 24 →
    run s 1#2 .dec k.toList (some v) buf = some (.output out, t) →
    run s' 1#2 .dec k.toList (some v) buf' = some (.output out', t') →
    blk buf i = some c → blk buf' i = some c' → c ≠ c' → (∀ j, j ≠ i → blk buf j = blk buf' j) →
    blk out i ≠ blk out' i ∧
    (∀ p p', blk out (i + 1) = some p → blk out' (i + 1) = some p' → xorBlock p p' = xorBlock c c') ∧
    (∀ j, j ≠ i → j ≠ i + 1 → blk out j = blk out' j)

/-- An accepted operation returns the engine to the idle state it was opened in, in every element (42_buffer_operations.md R171).
The spec marks R171 "[derived: ...]", a consequence of other rules. -/
def Obligations.OperationLeavesNoTrace : Prop :=
  ∀ (s t : State) (m : BitVec 2) (d : Dir) (buf out : List Byte),
    s.busy = false → s.Legal → buf.length < 2 ^ 24 →
    drive s [] (operationMoves m d buf) = some (.output out, t) → t.toElements = s.toElements

/-- The outcome of an operation is a function of mode, direction, key, IV and input alone, and the outcome of a run does not depend on the idle state it starts in (42_buffer_operations.md R160, R171).
The spec marks R160, R171 "[derived: ...]", a consequence of other rules.
The second clause also covers keys of 256 bytes or more, which R160 leaves out; there it speaks of the model's choice of commands, entry 15. -/
def Obligations.OutcomesDependOnNothingElse : Prop :=
  ∀ (s s' : State) (m : BitVec 2) (d : Dir) (buf : List Byte), s.busy = false → s'.busy = false → buf.length < 2 ^ 24 →
    (s.key = s'.key → s.keyv = s'.keyv → s.iv = s'.iv → s.ivv = s'.ivv →
      (drive s [] (operationMoves m d buf)).map Prod.fst = (drive s' [] (operationMoves m d buf)).map Prod.fst) ∧
    (∀ k v, (run s m d k v buf).map Prod.fst = (run s' m d k v buf).map Prod.fst)

/-- ECB block independence: rearranging, repeating or dropping input blocks does the same to the output blocks, and a buffer may be split at any block boundary (42_buffer_operations.md R172).
The spec marks R172 "[derived: ...]", a consequence of other rules. -/
def Obligations.EcbBlockIndependence : Prop :=
  ∀ (s s' t t' : State) (d : Dir) (k : Block) (v v' : Option Block) (a b outA outB : List Byte),
    (a ++ b).length < 2 ^ 24 →
    run s 0#2 d k.toList v a = some (.output outA, t) → run s' 0#2 d k.toList v' b = some (.output outB, t') →
    (∀ f : Nat → Nat, (∀ j, j < b.length / 16 → blk b j = blk a (f j)) →
      ∀ j, j < b.length / 16 → blk outB j = blk outA (f j)) ∧
    ∃ t'', run s 0#2 d k.toList v (a ++ b) = some (.output (outA ++ outB), t'')

/-- Splitting a CBC buffer: the parts, the second under the last ciphertext block of the first as IV, give the whole (42_buffer_operations.md R176).
The spec marks R176 "[derived: ...]", a consequence of other rules. -/
def Obligations.CbcSplitWithReloadedIv : Prop :=
  ∀ (s s' t t' : State) (d : Dir) (k v v' : Block) (a b outA outB : List Byte),
    (a ++ b).length < 2 ^ 24 →
    run s 1#2 d k.toList (some v) a = some (.output outA, t) →
    blk (if d = .enc then outA else a) (a.length / 16 - 1) = some v' →
    run s' 1#2 d k.toList (some v') b = some (.output outB, t') →
    ∃ t'', run s 1#2 d k.toList (some v) (a ++ b) = some (.output (outA ++ outB), t'')

/-- A reset in the middle of an operation: the output blocks delivered by its first BLKs are the first blocks of the whole result (70_reset_and_hazards.md R232; 20_memory.md R61). -/
def Obligations.PartialOutputIsAPrefix : Prop :=
  ∀ (s t : State) (m : BitVec 2) (d : Dir) (buf out : List Byte) (n : Nat),
    s.busy = false → buf.length < 2 ^ 24 → n ≤ buf.length / 16 →
    drive s [] (operationMoves m d buf) = some (.output out, t) →
    ∃ t', drive s [] ((operationMoves m d buf).take (1 + n)) = some (.output (out.take (n * 16)), t') ∧
      (n < buf.length / 16 → t'.busy = true ∧ t'.idx.toNat = n)

-- Assembler

/-- Lines of 30_encoding.md section 6 assemble to the words it lists, and a line the assembler must refuse is refused (R82). -/
def Obligations.AssemblerExamples : Prop :=
  assembleText "KEYLD 000102030405060708090a0b0c0d0e0f" =
    some [.issue 0x10000010#32 [0, 1, 2, 3, 4, 5, 6, 7, 8, 9, 10, 11, 12, 13, 14, 15]] ∧
  assembleText "KEYLD -" = some [.issue 0x10000000#32 []] ∧
  assembleText "IVCLR" = some [.issue 0x30000000#32 []] ∧
  assembleText "START CBC, ENC, 32 ; a comment" = some [.issue 0x44000020#32 []] ∧
  assembleText "START M3, DEC, 0x10" = some [.issue 0x4E000010#32 []] ∧
  assembleText ".word 0x41000020" = some [.issue 0x41000020#32 []] ∧
  assembleText "BLK 0011" = none

/-- Whatever the model's assembler accepts, pseudo-instructions included, is made of commands with exactly the payload their words ask for (30_encoding.md R74).
For a `.word` line without bytes this is the model's choice, entry 14: 30_encoding.md section 5 gives that line no payload with no condition, and the model refuses it where its word asks for one. -/
def Obligations.AssembledLinesAreFramed : Prop :=
  ∀ (line : AsmLine) (ms : List HostMove), assemble line = some ms → ∀ m ∈ ms, framed m = true

-- Every block size

/-- This hardware is the member at B = 16 of the family over the block size, with the free primitive: its reset state, its commands and its steps (00_scope.md R4, R7). -/
def Obligations.ThisHardwareIsTheFamilyAtSixteen : Prop :=
  State.reset = State.resetOf 16 ∧
  ∀ s : State, (∀ i, exec i s = execOver Config.primitive i s) ∧ step s = stepOver Config.primitive s

/-- For every block size B >= 1 and every primitive: the invariants of 10_state.md R35 hold at reset, and from a state that has them and whose host moves are whole commands or resets, a step answers a next state of the same kind (00_scope.md R4).
The spec marks R35 "[derived: ...]", a consequence of other rules. -/
def Obligations.EveryBlockSizeStepsSafelyAndStaysLegal : Prop :=
  ∀ B : Nat, 1 ≤ B →
    (State.resetOf B).Legal ∧
    ∀ (P : Primitive B) (s : State B), s.Legal → s.Framed → ∃ t, stepOver P s = .next t ∧ t.Legal ∧ t.Framed
end

