-- ==== Sys2Proof/Laws/Decode.lean ====
section
/-! SUPPORT. Facts about rows, fields and formats, from which the encoding statements are proved. -/

namespace Sys2Proof

/-- A word that hits a row has that row's opcode. -/
theorem opcode_of_hits {r : OpRow} {w : Word} (hr : r ∈ opRows) (h : r.hits w = true) :
    opcodeField w = opcodeField r.pattern := by
  have h' : w &&& r.mask = r.pattern := by simpa [OpRow.hits] using h
  have hm : ∀ r ∈ opRows, opcodeField r.mask = 0xF#4 := by decide
  have : opcodeField (w &&& r.mask) = opcodeField w &&& opcodeField r.mask := by
    simp [opcodeField, BitVec.extractLsb, BitVec.extractLsb'_and]
  rw [← h', this, hm r hr]
  generalize opcodeField w = x
  revert x; decide

/-- A row in bits: where its mask is set the word is as its pattern. -/
theorem hits_iff_bits {r : OpRow} {w : Word} :
    r.hits w = true ↔ ∀ i < 32, (w.getLsbD i && r.mask.getLsbD i) = r.pattern.getLsbD i := by
  rw [OpRow.hits, beq_iff_eq]
  constructor
  · rintro h i -; rw [← h, BitVec.getLsbD_and]
  · intro h; exact BitVec.eq_of_getLsbD_eq fun i hi => by rw [BitVec.getLsbD_and]; exact h i hi

/-- The bits of a word of format S. -/
theorem getLsbD_formatS (op : BitVec 4) (mode : BitVec 2) (dir : BitVec 1) (len : Len) (i : Nat) :
    (formatS op mode dir len).getLsbD i =
      if i < 24 then len.getLsbD i
      else if i < 25 then false
      else if i < 26 then dir.getLsbD (i - 25)
      else if i < 28 then mode.getLsbD (i - 26)
      else op.getLsbD (i - 28) := by
  have : ∀ j, (op ++ mode ++ dir ++ 0#1 ++ len).getLsbD j =
      if j < 24 then len.getLsbD j
      else if j < 25 then false
      else if j < 26 then dir.getLsbD (j - 25)
      else if j < 28 then mode.getLsbD (j - 26)
      else op.getLsbD (j - 28) := by
    intro j
    simp only [BitVec.getLsbD_append]
    grind
  exact this i

/-- The bits of a word of format K. -/
theorem getLsbD_formatK (op : BitVec 4) (n : BitVec 8) (i : Nat) :
    (formatK op n).getLsbD i = if i < 8 then n.getLsbD i else if i < 28 then false else op.getLsbD (i - 28) := by
  have : ∀ j, (op ++ 0#20 ++ n).getLsbD j =
      if j < 8 then n.getLsbD j else if j < 28 then false else op.getLsbD (j - 28) := by
    intro j
    simp only [BitVec.getLsbD_append]
    grind
  exact this i

/-- The bits of a word of format Z. -/
theorem getLsbD_formatZ (op : BitVec 4) (i : Nat) :
    (formatZ op).getLsbD i = if i < 28 then false else op.getLsbD (i - 28) := by
  have : ∀ j, (op ++ 0#28).getLsbD j = if j < 28 then false else op.getLsbD (j - 28) := by
    intro j
    simp only [BitVec.getLsbD_append]
    grind
  exact this i

@[simp] theorem opcodeField_formatZ (op : BitVec 4) : opcodeField (formatZ op) = op :=
  BitVec.eq_of_getLsbD_eq fun i hi => by simp [opcodeField, getLsbD_formatZ, hi]

@[simp] theorem opcodeField_formatK (op : BitVec 4) (n : BitVec 8) : opcodeField (formatK op n) = op :=
  BitVec.eq_of_getLsbD_eq fun i hi => by
    simp [opcodeField, getLsbD_formatK, hi]; grind

@[simp] theorem nField_formatK (op : BitVec 4) (n : BitVec 8) : nField (formatK op n) = n :=
  BitVec.eq_of_getLsbD_eq fun i hi => by
    simp [nField, getLsbD_formatK, hi]

@[simp] theorem opcodeField_formatS (op : BitVec 4) (mode : BitVec 2) (dir : BitVec 1) (len : Len) :
    opcodeField (formatS op mode dir len) = op :=
  BitVec.eq_of_getLsbD_eq fun i hi => by simp [opcodeField, getLsbD_formatS, hi]; grind

@[simp] theorem modeField_formatS (op : BitVec 4) (mode : BitVec 2) (dir : BitVec 1) (len : Len) :
    modeField (formatS op mode dir len) = mode :=
  BitVec.eq_of_getLsbD_eq fun i hi => by simp [modeField, getLsbD_formatS, hi]; grind

@[simp] theorem dirField_formatS (op : BitVec 4) (mode : BitVec 2) (dir : Dir) (len : Len) :
    dirField (formatS op mode dir.bit len) = dir := by
  have h : (formatS op mode dir.bit len).getLsbD 25 = dir.bit.getLsbD 0 := by simp only [getLsbD_formatS]; simp
  rw [dirField, h]
  cases dir <;> rfl

@[simp] theorem lenField_formatS (op : BitVec 4) (mode : BitVec 2) (dir : BitVec 1) (len : Len) :
    lenField (formatS op mode dir len) = len :=
  BitVec.eq_of_getLsbD_eq fun i hi => by simp [lenField, getLsbD_formatS, hi]

end Sys2Proof
end

