-- ==== Sys2Proof/Laws/PerInstr.lean ====
section
/-! SUPPORT. Facts about every instruction as syntax, one lemma per constructor. -/

namespace Sys2Proof

/-- The row of the opcode map an instruction belongs to (30_encoding.md R72). -/
def Laws.rowOf : Instr → OpRow
  | .keyld _ => rowKeyld
  | .ivld => rowIvld
  | .ivclr => rowIvclr
  | .start _ _ _ => rowStart
  | .blk => rowBlk
  | .errclr => rowErrclr

/-- An instruction's word hits its row. -/
def Laws.EncodeHitsItsRow.Statement (i : Instr) : Prop := (Laws.rowOf i).hits (encode i) = true

theorem Laws.EncodeHitsItsRow.keyld (n : BitVec 8) : Laws.EncodeHitsItsRow.Statement (.keyld n) := by
  revert n; unfold Laws.EncodeHitsItsRow.Statement; decide

theorem Laws.EncodeHitsItsRow.ivld : Laws.EncodeHitsItsRow.Statement .ivld := by
  unfold Laws.EncodeHitsItsRow.Statement; decide

theorem Laws.EncodeHitsItsRow.ivclr : Laws.EncodeHitsItsRow.Statement .ivclr := by
  unfold Laws.EncodeHitsItsRow.Statement; decide

theorem Laws.EncodeHitsItsRow.start (mode : BitVec 2) (dir : Dir) (len : Len) :
    Laws.EncodeHitsItsRow.Statement (.start mode dir len) := by
  refine hits_iff_bits.2 fun i hi => ?_
  have hp : ∀ i < 32, rowStart.pattern.getLsbD i = decide (i = 30) := by decide
  have hm : ∀ i < 32, rowStart.mask.getLsbD i = (decide (i = 24) || decide (28 ≤ i)) := by decide
  rw [Laws.rowOf, hp i hi, hm i hi, encode, getLsbD_formatS]
  have : ∀ j < 4, (4#4).getLsbD j = decide (j = 2) := by decide
  grind

theorem Laws.EncodeHitsItsRow.blk : Laws.EncodeHitsItsRow.Statement .blk := by
  unfold Laws.EncodeHitsItsRow.Statement; decide

theorem Laws.EncodeHitsItsRow.errclr : Laws.EncodeHitsItsRow.Statement .errclr := by
  unfold Laws.EncodeHitsItsRow.Statement; decide

end Sys2Proof
end

