-- ==== Sys2Proof/Laws/State.lean ====
section
/-! SUPPORT. What each named update of the state leaves in each part of it, once. A field of `Elements` is read through `toElements`. -/

namespace Sys2Proof.Machine

variable {B : Nat} (s : State B)

@[simp] theorem State.respond_toElements (r : Response B) : (s.respond r).toElements = s.toElements := rfl
@[simp] theorem State.respond_moves (r : Response B) : (s.respond r).moves = s.moves := rfl
@[simp] theorem State.respond_din (r : Response B) : (s.respond r).din = [] := rfl
@[simp] theorem State.respond_rsp (r : Response B) : (s.respond r).rsp = s.rsp ++ [r] := rfl

@[simp] theorem State.present_toElements (ms : List HostMove) (p : List Byte) : (s.present ms p).toElements = s.toElements := rfl
@[simp] theorem State.present_moves (ms : List HostMove) (p : List Byte) : (s.present ms p).moves = ms := rfl
@[simp] theorem State.present_din (ms : List HostMove) (p : List Byte) : (s.present ms p).din = p := rfl
@[simp] theorem State.present_rsp (ms : List HostMove) (p : List Byte) : (s.present ms p).rsp = s.rsp := rfl

@[simp] theorem State.loadKey_toElements (k : Block B) : (s.loadKey k).toElements = { s.toElements with key := k, keyv := true } := rfl
@[simp] theorem State.loadKey_moves (k : Block B) : (s.loadKey k).moves = s.moves := rfl
@[simp] theorem State.loadKey_din (k : Block B) : (s.loadKey k).din = s.din := rfl
@[simp] theorem State.loadKey_rsp (k : Block B) : (s.loadKey k).rsp = s.rsp := rfl

@[simp] theorem State.loadIv_toElements (v : Block B) : (s.loadIv v).toElements = { s.toElements with iv := v, ivv := true } := rfl
@[simp] theorem State.loadIv_moves (v : Block B) : (s.loadIv v).moves = s.moves := rfl
@[simp] theorem State.loadIv_din (v : Block B) : (s.loadIv v).din = s.din := rfl
@[simp] theorem State.loadIv_rsp (v : Block B) : (s.loadIv v).rsp = s.rsp := rfl

@[simp] theorem State.clearIv_toElements : (s.clearIv).toElements = { s.toElements with iv := Block.zeros, ivv := false } := rfl
@[simp] theorem State.clearIv_moves : (s.clearIv).moves = s.moves := rfl
@[simp] theorem State.clearIv_din : (s.clearIv).din = s.din := rfl
@[simp] theorem State.clearIv_rsp : (s.clearIv).rsp = s.rsp := rfl

@[simp] theorem State.clearErr_toElements : (s.clearErr).toElements = { s.toElements with err := 0#8 } := rfl
@[simp] theorem State.clearErr_moves : (s.clearErr).moves = s.moves := rfl
@[simp] theorem State.clearErr_din : (s.clearErr).din = s.din := rfl
@[simp] theorem State.clearErr_rsp : (s.clearErr).rsp = s.rsp := rfl

@[simp] theorem State.openOperation_toElements (m : Mode) (d : Dir) (len : Len) : (s.openOperation m d len).toElements = { s.toElements with busy := true, mode := m, dir := d, nblk := blockCount len B, idx := 0#24, chain := firstChain m s.iv } := rfl
@[simp] theorem State.openOperation_moves (m : Mode) (d : Dir) (len : Len) : (s.openOperation m d len).moves = s.moves := rfl
@[simp] theorem State.openOperation_din (m : Mode) (d : Dir) (len : Len) : (s.openOperation m d len).din = s.din := rfl
@[simp] theorem State.openOperation_rsp (m : Mode) (d : Dir) (len : Len) : (s.openOperation m d len).rsp = s.rsp := rfl

@[simp] theorem State.closeOperation_toElements : (s.closeOperation).toElements = { s.toElements with busy := false, mode := .ecb, dir := .enc, nblk := 0#24, idx := 0#24, chain := Block.zeros } := rfl
@[simp] theorem State.closeOperation_moves : (s.closeOperation).moves = s.moves := rfl
@[simp] theorem State.closeOperation_din : (s.closeOperation).din = s.din := rfl
@[simp] theorem State.closeOperation_rsp : (s.closeOperation).rsp = s.rsp := rfl

@[simp] theorem State.advance_toElements (c : Block B) : (s.advance c).toElements = { s.toElements with idx := s.idx + 1#24, chain := c } := rfl
@[simp] theorem State.advance_moves (c : Block B) : (s.advance c).moves = s.moves := rfl
@[simp] theorem State.advance_din (c : Block B) : (s.advance c).din = s.din := rfl
@[simp] theorem State.advance_rsp (c : Block B) : (s.advance c).rsp = s.rsp := rfl

@[simp] theorem State.hostReset_toElements : (s.hostReset).toElements = Elements.reset := rfl
@[simp] theorem State.hostReset_moves : (s.hostReset).moves = s.moves := rfl
@[simp] theorem State.hostReset_din : (s.hostReset).din = [] := rfl
@[simp] theorem State.hostReset_rsp : (s.hostReset).rsp = s.rsp := rfl

@[simp] theorem State.withFetchWord_toElements (s : State) (nbits w : Nat) : (s.withFetchWord nbits w).toElements = s.toElements := rfl
@[simp] theorem State.withFetchWord_moves (s : State) (nbits w : Nat) :
    (s.withFetchWord nbits w).moves = .issue (tableWord nbits w) (List.replicate (plen (tableWord nbits w)) 0#8) :: s.moves := rfl
@[simp] theorem State.withFetchWord_din (s : State) (nbits w : Nat) : (s.withFetchWord nbits w).din = s.din := rfl
@[simp] theorem State.withFetchWord_rsp (s : State) (nbits w : Nat) : (s.withFetchWord nbits w).rsp = s.rsp := rfl

/-- A state is its elements and its ports. -/
theorem State.ext_parts {s t : State B} (he : s.toElements = t.toElements) (hm : s.moves = t.moves) (hd : s.din = t.din)
    (hr : s.rsp = t.rsp) : s = t := by
  cases s; cases t; simp_all

end Sys2Proof.Machine
end

