-- ==== Sys2Proof/Laws/Ops.lean ====
section
/-! SUPPORT. One lemma per shared operation: what it can do, cited in place of unfolding it. -/

namespace Sys2Proof.Machine

variable {B : Nat}

/-- The state an error leaves (60_exceptions.md R195). -/
theorem raise_eq (x : Err) (s : State B) :
    raise x s = .next { s with err := x.code, din := [], rsp := s.rsp ++ [⟨errWord x.code, none⟩] } := rfl

theorem respondOk_eq (s : State B) : respondOk s = .next (s.respond ⟨okWord, none⟩) := rfl

@[simp] theorem blockOf_toList (b : Block B) : blockOf b.toList = some b := by
  simp [blockOf, Vector.toList]

/-- `blockOf` answers exactly the block whose bytes it is given. -/
theorem blockOf_eq_some {l : List Byte} {b : Block B} : blockOf l = some b ↔ l = b.toList := by
  constructor
  · intro h
    unfold blockOf at h
    split at h
    · cases h; rfl
    · cases h
  · rintro rfl; simp

theorem blockOf_isSome {l : List Byte} (h : l.length = B) : ∃ b : Block B, l = b.toList ∧ blockOf l = some b :=
  ⟨⟨l.toArray, by simpa using h⟩, rfl, by simp [blockOf, h]⟩

/-- A byte sequence is a block exactly when its length is `B` (00_scope.md R12). -/
theorem blockOf_eq_none {l : List Byte} : (blockOf l : Option (Block B)) = none ↔ l.length ≠ B := by
  simp [blockOf]

/-- Lane j of XOR (41_operation_commands.md R137). -/
@[simp] theorem getElem_xorBlock (a b : Block B) (j : Nat) (hj : j < B) : (xorBlock a b)[j] = a[j] ^^^ b[j] := by
  simp [xorBlock]

theorem xorBlock_cancel (a b : Block B) : xorBlock (xorBlock a b) b = a := by
  ext j hj; simp

@[simp] theorem E_D (P : Primitive B) (k y : Block B) : P.E k (P.D k y) = y := by simp [Primitive.E, Primitive.D]

@[simp] theorem D_E (P : Primitive B) (k x : Block B) : P.D k (P.E k x) = x := by simp [Primitive.E, Primitive.D]

/-- `modeOf` knows the fields 0 and 1. -/
theorem modeOf_eq_some {f : BitVec 2} {m : Mode} : modeOf f = some m ↔ (f = 0#2 ∧ m = .ecb) ∨ (f = 1#2 ∧ m = .cbc) := by
  revert f m; rintro f (_ | _) <;> revert f <;> decide

theorem modeOf_eq_none {f : BitVec 2} : modeOf f = none ↔ 2 ≤ f.toNat := by revert f; decide

theorem blockCount_toNat (len : Len) : (blockCount len B).toNat = len.toNat / B := by
  rw [blockCount, BitVec.toNat_ofNat, Nat.mod_eq_of_lt (lt_of_le_of_lt (Nat.div_le_self _ _) len.isLt)]

/-- Everything taking a host move can find. -/
theorem takeMove_cases (ms : List HostMove) :
    (takeMove ms B = .wait ∧ (ms = [] ∨ ∃ w p, ms = [.issue w p] ∧ p.length < plen w B)) ∨
    (∃ rest, takeMove ms B = .reset rest ∧
      (ms = .reset :: rest ∨ ∃ w p, ms = .issue w p :: .reset :: rest ∧ p.length < plen w B)) ∨
    (∃ w p rest, takeMove ms B = .command w p rest ∧ ms = .issue w p :: rest ∧ p.length = plen w B) ∨
    (takeMove ms B = .illFramed ∧ ∃ m ∈ ms, framed m B = false) := by
  rcases ms with _ | ⟨_ | _, rest⟩
  · simp [takeMove]
  · rename_i w p
    by_cases h : p.length = plen w B
    · refine .inr (.inr (.inl ⟨w, p, rest, ?_, rfl, h⟩))
      simp [takeMove, h]
    · by_cases h2 : plen w B < p.length
      · exact .inr (.inr (.inr ⟨by simp [takeMove, h, h2], _, List.mem_cons_self, by simp [framed, h]⟩))
      · have h3 : p.length < plen w B := by omega
        rcases rest with _ | ⟨_ | _, rest⟩
        · exact .inl ⟨by simp [takeMove, h, h2], .inr ⟨w, p, rfl, h3⟩⟩
        · exact .inr (.inr (.inr ⟨by simp [takeMove, h, h2], _, List.mem_cons_self, by simp [framed, h]⟩))
        · exact .inr (.inl ⟨rest, by simp [takeMove, h, h2], .inr ⟨w, p, rfl, h3⟩⟩)
  · exact .inr (.inl ⟨rest, rfl, .inl rfl⟩)

end Sys2Proof.Machine
end

