-- ==== Sys2Proof/Laws/Step.lean ====
section
/-! SUPPORT. What each command and one step can do: one inversion lemma each. -/

namespace Sys2Proof.Machine

variable {B : Nat} {s t : State B}

/-- `t` is `s` after the error `x` (60_exceptions.md R195). -/
abbrev Raised (x : Err) (s t : State B) : Prop :=
  t = { s with err := x.code, din := [], rsp := s.rsp ++ [⟨errWord x.code, none⟩] }

/-- Everything KEYLD can do (40_setup_commands.md R100). -/
theorem execKeyld_cases {n : BitVec 8} (h : execKeyld n s = .next t) :
    (s.busy = true ∧ Raised .badSequence s t) ∨
    (s.busy = false ∧ n.toNat ≠ B ∧ Raised .invalidKeyLength s t) ∨
    (s.busy = false ∧ n.toNat = B ∧ ∃ k : Block B, s.din = k.toList ∧ t = (s.loadKey k).respond ⟨okWord, none⟩) := by
  unfold execKeyld at h
  split at h
  · exact .inl ⟨‹_›, by simpa [raise_eq, eq_comm] using h⟩
  · rename_i hb
    have hb : s.busy = false := by simpa using hb
    split at h
    · rename_i hn
      exact .inr (.inl ⟨hb, by simpa [Config.keyOK] using hn, by simpa [raise_eq, eq_comm] using h⟩)
    · rename_i hn
      split at h
      · rename_i k hk
        exact .inr (.inr ⟨hb, by simpa [Config.keyOK] using hn, k, blockOf_eq_some.1 hk, by simpa [respondOk_eq, eq_comm] using h⟩)
      · cases h

/-- Everything IVLD can do (40_setup_commands.md R101). -/
theorem execIvld_cases (h : execIvld s = .next t) :
    (s.busy = true ∧ Raised .badSequence s t) ∨
    (s.busy = false ∧ ∃ v : Block B, s.din = v.toList ∧ t = (s.loadIv v).respond ⟨okWord, none⟩) := by
  unfold execIvld at h
  split at h
  · exact .inl ⟨‹_›, by simpa [raise_eq, eq_comm] using h⟩
  · rename_i hb
    split at h
    · rename_i v hv
      exact .inr ⟨by simpa using hb, v, blockOf_eq_some.1 hv, by simpa [respondOk_eq, eq_comm] using h⟩
    · cases h

/-- Everything IVCLR can do (40_setup_commands.md R102). -/
theorem execIvclr_cases (h : execIvclr s = .next t) :
    (s.busy = true ∧ Raised .badSequence s t) ∨ (s.busy = false ∧ t = s.clearIv.respond ⟨okWord, none⟩) := by
  unfold execIvclr at h
  split at h
  · exact .inl ⟨‹_›, by simpa [raise_eq, eq_comm] using h⟩
  · rename_i hb
    exact .inr ⟨by simpa using hb, by simpa [respondOk_eq, eq_comm] using h⟩

/-- Everything ERRCLR can do (40_setup_commands.md R103). -/
theorem execErrclr_cases (h : execErrclr s = .next t) : t = s.clearErr.respond ⟨okWord, none⟩ := by
  simpa [execErrclr, respondOk_eq, eq_comm] using h

/-- The tests an accepted START has passed (41_operation_commands.md R122). -/
abbrev Accepts (s : State B) (m : Mode) (len : Len) : Prop :=
  s.busy = false ∧ s.keyv = true ∧ B ≤ len.toNat ∧ len.toNat % B = 0 ∧ (m = .cbc → s.ivv = true)

/-- Everything START can do (41_operation_commands.md R122). -/
theorem execStart_cases {f : BitVec 2} {d : Dir} {len : Len} (h : execStart f d len s = .next t) :
    (∃ x, Raised x s t) ∨
    (∃ m, modeOf f = some m ∧ Accepts s m len ∧ t = (s.openOperation m d len).respond ⟨okWord, none⟩) := by
  unfold execStart at h
  split at h
  · exact .inl ⟨_, by simpa [raise_eq, eq_comm] using h⟩
  rename_i hb
  split at h
  · exact .inl ⟨_, by simpa [raise_eq, eq_comm] using h⟩
  rename_i m hm
  split at h
  · exact .inl ⟨_, by simpa [raise_eq, eq_comm] using h⟩
  rename_i hk
  split at h
  · exact .inl ⟨_, by simpa [raise_eq, eq_comm] using h⟩
  rename_i hs
  split at h
  · exact .inl ⟨_, by simpa [raise_eq, eq_comm] using h⟩
  rename_i ha
  split at h
  · exact .inl ⟨_, by simpa [raise_eq, eq_comm] using h⟩
  rename_i hv
  refine .inr ⟨m, hm, ⟨by simpa using hb, by simpa using hk, by simpa [lenShort] using hs,
    by simpa [lenMisaligned] using ha, fun hc => ?_⟩, by simpa [respondOk_eq, eq_comm] using h⟩
  simpa [hc] using hv

/-- An accepted START (41_operation_commands.md R122). -/
theorem execStart_accepts {f : BitVec 2} {m : Mode} {len : Len} (d : Dir) (hm : modeOf f = some m) (h : Accepts s m len) :
    execStart f d len s = .next ((s.openOperation m d len).respond ⟨okWord, none⟩) := by
  obtain ⟨hb, hk, hs, ha, hv⟩ := h
  have hv' : ¬(m = .cbc ∧ s.ivv = false) := by rintro ⟨hc, hi⟩; simp [hv hc] at hi
  simp [execStart, hb, hm, hk, lenShort, Nat.not_lt.2 hs, lenMisaligned, ha, hv', respondOk_eq]

/-- Everything BLK can do over a primitive (41_operation_commands.md R129). -/
theorem blkOver_cases {P : Primitive B} (h : blkOver P s = .next t) :
    (s.busy = false ∧ Raised .badSequence s t) ∨
    (s.busy = true ∧ ∃ x : Block B, s.din = x.toList ∧ t = processBlock P x s) := by
  unfold blkOver at h
  split at h
  · rename_i hb
    exact .inl ⟨by simpa using hb, by simpa [raise_eq, eq_comm] using h⟩
  · rename_i hb
    split at h
    · rename_i x hx
      exact .inr ⟨by simpa using hb, x, blockOf_eq_some.1 hx, by simpa [eq_comm] using h⟩
    · cases h

/-- An in-sequence BLK over a primitive (41_operation_commands.md R129). -/
theorem blkOver_busy {P : Primitive B} {x : Block B} (hb : s.busy = true) (hx : s.din = x.toList) :
    blkOver P s = .next (processBlock P x s) := by
  simp [blkOver, hb, hx]

/-- An in-sequence BLK (41_operation_commands.md R129). -/
theorem execBlk_busy {s : State} {x : Block} (hb : s.busy = true) (hx : s.din = x.toList) :
    execBlk s = .next (processBlock Config.primitive x s) := blkOver_busy hb hx

/-- A BLK that leaves the operation open (41_operation_commands.md R129). -/
theorem processBlock_open {P : Primitive B} {x : Block B} (h : s.atLast = false) :
    processBlock P x s =
      (s.advance (nextChain s.mode s.dir s.chain x (outputBlock P s.mode s.dir s.key s.chain x))).respond
        ⟨okDataWord, some (outputBlock P s.mode s.dir s.key s.chain x)⟩ := by
  simp [processBlock, h]

/-- The BLK that closes the operation (41_operation_commands.md R134). -/
theorem processBlock_last {P : Primitive B} {x : Block B} (h : s.atLast = true) :
    processBlock P x s = s.closeOperation.respond ⟨okLastWord, some (outputBlock P s.mode s.dir s.key s.chain x)⟩ := by
  simp [processBlock, h]

/-- Everything one step that answers a next state can have done, over any meanings of the instructions. -/
theorem stepWith_cases {ex : Instr → State B → Result B} (h : stepWith ex s = .next t) :
    t = s ∨
    (∃ rest, t = (s.present rest []).hostReset) ∨
    (∃ w p rest r, s.moves = .issue w p :: rest ∧ p.length = plen w B ∧ decode w = .error r ∧ Raised .badCommand (s.present rest p) t) ∨
    (∃ w p rest i, s.moves = .issue w p :: rest ∧ p.length = plen w B ∧ decode w = .ok i ∧ ex i (s.present rest p) = .next t) := by
  unfold stepWith at h
  rcases takeMove_cases (B := B) s.moves with ⟨e, -⟩ | ⟨rest, e, -⟩ | ⟨w, p, rest, e, hm, hp⟩ | ⟨e, -⟩ <;> simp only [e] at h
  · exact .inl (by simpa [eq_comm] using h)
  · exact .inr (.inl ⟨rest, by simpa [eq_comm] using h⟩)
  · unfold runWord at h
    split at h
    · exact .inr (.inr (.inr ⟨w, p, rest, _, hm, hp, ‹_›, h⟩))
    · exact .inr (.inr (.inl ⟨w, p, rest, _, hm, hp, ‹_›, by simpa [raise_eq, Raised, eq_comm] using h⟩))
  · cases h

/-- Everything one step of the machine that answers a next state can have done. -/
theorem step_cases {s t : State} (h : step s = .next t) :
    t = s ∨
    (∃ rest, t = (s.present rest []).hostReset) ∨
    (∃ w p rest r, s.moves = .issue w p :: rest ∧ p.length = plen w ∧ decode w = .error r ∧ Raised .badCommand (s.present rest p) t) ∨
    (∃ w p rest i, s.moves = .issue w p :: rest ∧ p.length = plen w ∧ decode w = .ok i ∧ exec i (s.present rest p) = .next t) :=
  stepWith_cases h

/-- A step whose next host move is a whole command, over any meanings of the instructions. -/
theorem stepWith_command {ex : Instr → State B → Result B} {w : Word} {p : List Byte} {rest : List HostMove}
    (hm : s.moves = .issue w p :: rest) (hp : p.length = plen w B) : stepWith ex s = runWord ex w (s.present rest p) := by
  simp [stepWith, hm, takeMove, hp]

/-- A step whose next host move is a whole command. -/
theorem step_command {s : State} {w : Word} {p : List Byte} {rest : List HostMove} (hm : s.moves = .issue w p :: rest)
    (hp : p.length = plen w) : step s = execWord w (s.present rest p) := stepWith_command hm hp

end Sys2Proof.Machine
end

