-- ==== Sys2Proof/Laws/Buffer.lean ====
section
/-! SUPPORT. Buffers as lists of blocks, and what driving a stream of BLKs, or a whole run, through the step comes to. -/

namespace Sys2Proof.Machine

/-- The bytes of blocks in order. -/
def bytesOf (bs : List Block) : List Byte := bs.flatMap Vector.toList

@[simp] theorem bytesOf_nil : bytesOf [] = [] := rfl
theorem bytesOf_cons (b : Block) (bs : List Block) : bytesOf (b :: bs) = b.toList ++ bytesOf bs := rfl

theorem bytesOf_length (bs : List Block) : (bytesOf bs).length = bs.length * Config.B := by
  induction bs with
  | nil => rfl
  | cons b bs ih => rw [bytesOf_cons, List.length_append, ih, Vector.length_toList, List.length_cons, Nat.succ_mul, Nat.add_comm]

/-- Every whole number of blocks is the bytes of a list of blocks (00_scope.md R12). -/
theorem exists_bytesOf (n : Nat) (buf : List Byte) (h : buf.length = n * Config.B) : ∃ bs, buf = bytesOf bs ∧ bs.length = n := by
  induction n generalizing buf with
  | zero => exact ⟨[], by simpa using h, rfl⟩
  | succ n ih =>
    obtain ⟨bs, h1, h2⟩ := ih (buf.drop Config.B) (by simp [h, Nat.succ_mul])
    obtain ⟨b, hb, -⟩ := blockOf_isSome (B := Config.B) (l := buf.take Config.B) (by simp [h, Nat.succ_mul])
    exact ⟨b :: bs, by rw [bytesOf_cons, ← hb, ← h1, List.take_append_drop], by simp [h2]⟩

/-- Block i of the bytes of blocks (00_scope.md R12). -/
@[simp] theorem blk_bytesOf (bs : List Block) (i : Nat) : blk (bytesOf bs) i = bs[i]? := by
  induction bs generalizing i with
  | nil => simp [blk, blkBytes, blockOf]
  | cons b bs ih =>
    cases i with
    | zero => simp [blk, blkBytes, bytesOf_cons]
    | succ i =>
      have h := ih i
      have hl : b.toList.length = Config.B := by simp
      simp only [blk, blkBytes, bytesOf_cons] at h ⊢
      rw [show (i + 1) * Config.B = b.toList.length + i * Config.B by rw [hl, Nat.succ_mul, Nat.add_comm],
        List.drop_length_add_append]
      simpa using h

theorem blkBytes_bytesOf {bs : List Block} {i : Nat} (h : i < bs.length) : blkBytes (bytesOf bs) i = (bs[i]).toList := by
  have := blk_bytesOf bs i
  rw [List.getElem?_eq_getElem h] at this
  exact blockOf_eq_some.1 this

/-- The BLKs of a buffer, one per block, in order (30_encoding.md R83). -/
theorem blkMoves_bytesOf (bs : List Block) : blkMoves (bytesOf bs) = bs.map fun b => blkMove b.toList := by
  refine List.ext_getElem ?_ fun i h1 h2 => ?_
  · simp [blkMoves, bytesOf_length]
  · simp only [List.length_map] at h2
    simp [blkMoves, blkBytes_bytesOf h2]

/-- The output blocks of an operation, block after block, from a chain value (41_operation_commands.md R130 to R133). -/
def stream (P : Primitive) (m : Mode) (d : Dir) (k : Block) : Block → List Block → List Block
  | _, [] => []
  | c, x :: xs =>
    outputBlock P m d k c x :: stream P m d k (nextChain m d c x (outputBlock P m d k c x)) xs

@[simp] theorem stream_length (P : Primitive) (m : Mode) (d : Dir) (k c : Block) (xs : List Block) :
    (stream P m d k c xs).length = xs.length := by
  induction xs generalizing c with
  | nil => rfl
  | cons x xs ih => simp [stream, ih]

/-- A step of the host that presents one whole command alone. -/
theorem step_alone (s : State) (c : Command) (i : Instr) (hd : decode (encode c.instr) = .ok i)
    (hp : c.payload.length = plen (encode c.instr)) :
    step { s with moves := [c.move] } = exec i { s with moves := [], din := c.payload } := by
  rw [step_command (w := encode c.instr) (p := c.payload) (rest := []) rfl hp, execWord, runWord, hd]
  rfl

@[simp] theorem errb_ok {B : Nat} (b : Option (Block B)) : Response.errb ⟨okWord, b⟩ = false := by
  show okWord.getLsbD 31 = false; decide

@[simp] theorem errb_okData {B : Nat} (b : Option (Block B)) : Response.errb ⟨okDataWord, b⟩ = false := by
  show okDataWord.getLsbD 31 = false; decide

@[simp] theorem errb_okLast {B : Nat} (b : Option (Block B)) : Response.errb ⟨okLastWord, b⟩ = false := by
  show okLastWord.getLsbD 31 = false; decide

@[simp] theorem errb_err {B : Nat} (x : Err) : (⟨errWord x.code, none⟩ : Response B).errb = true := by
  show (errWord x.code).getLsbD 31 = true; cases x <;> decide

@[simp] theorem code_err {B : Nat} (x : Err) : (⟨errWord x.code, none⟩ : Response B).code = x.code := by
  show (errWord x.code).extractLsb 7 0 = x.code; cases x <;> decide

theorem decode_blkWord : decode (encode .blk) = .ok .blk := by decide

theorem plen_blkWord : plen (encode .blk) = Config.B := by decide

theorem step_blk (s : State) (x : Block) (hb : s.busy = true) :
    step { s with moves := [blkMove x.toList] } =
      .next (processBlock Config.primitive x { s with moves := [], din := x.toList }) := by
  rw [blkMove, step_alone s ⟨.blk, x.toList⟩ .blk decode_blkWord (by rw [plen_blkWord, Vector.length_toList]), exec]
  exact execBlk_busy hb rfl

/-- Driving no move at all. -/
@[simp] theorem drive_nil (s : State) (out : List Byte) : drive s out [] = some (.output out, s) := rfl

/-- A run is driving its moves (42_buffer_operations.md R160). -/
theorem run_eq_drive (s : State) (m : BitVec 2) (d : Dir) (k : List Byte) (v : Option Block) (buf : List Byte) :
    run s m d k v buf = drive s [] (runMoves m d k v buf) := rfl

/-- Driving one host move that is answered without an error. -/
theorem drive_cons {s t : State} {m : HostMove} {ms : List HostMove} {out : List Byte} {r : Response}
    (hs : step { s with moves := [m] } = .next t) (hr : t.rsp = s.rsp ++ [r]) (he : r.errb = false) :
    drive s out (m :: ms) = drive t (out ++ r.bytes) ms := by
  simp [drive, driveWith, hs, hr, he]

/-- Driving one host move that is answered with an error. -/
theorem drive_cons_error {s t : State} {m : HostMove} {ms : List HostMove} {out : List Byte} {r : Response}
    (hs : step { s with moves := [m] } = .next t) (hr : t.rsp = s.rsp ++ [r]) (he : r.errb = true) :
    drive s out (m :: ms) = some (.error r.code, t) := by
  simp [drive, driveWith, hs, hr, he]

/-- Driving a reset: no response, no output, and the driving goes on (70_reset_and_hazards.md R230; entry 17). -/
theorem drive_reset (s : State) (ms : List HostMove) (out : List Byte) :
    drive s out (.reset :: ms) = drive (State.hostReset { s with moves := [] }) out ms := by
  simp [drive, driveWith, step, stepWith, takeMove, State.present, State.hostReset]

/-- Driving the BLKs of what is left of an open operation: its output is the stream from the chain, and it ends idle, with everything else as it was
(41_operation_commands.md R129, R134). -/
theorem drive_blks (xs : List Block) (s : State) (out : List Byte) (hb : s.busy = true) (hne : xs ≠ [])
    (hn : s.idx.toNat + xs.length = s.nblk.toNat) :
    ∃ t, drive s out (xs.map fun x => blkMove x.toList) =
        some (.output (out ++ bytesOf (stream Config.primitive s.mode s.dir s.key s.chain xs)), t) ∧
      t.toElements =
        { s.toElements with busy := false, mode := .ecb, dir := .enc, nblk := 0#24, idx := 0#24, chain := Block.zeros } := by
  induction xs generalizing s out with
  | nil => exact absurd rfl hne
  | cons x xs ih =>
    have hs := step_blk s x hb
    rcases xs with _ | ⟨x', xs⟩
    · have hl : State.atLast { s with moves := [], din := x.toList } = true := by
        simpa [State.atLast] using hn
      rw [processBlock_last hl] at hs
      refine ⟨State.respond (State.closeOperation { s with moves := [], din := x.toList })
        ⟨okLastWord, some (outputBlock Config.primitive s.mode s.dir s.key s.chain x)⟩, ?_, rfl⟩
      rw [List.map_cons, drive_cons hs rfl (errb_okLast _)]
      simp [Response.bytes, stream, bytesOf_cons]
    · have hl : State.atLast { s with moves := [], din := x.toList } = false := by
        simp only [List.length_cons] at hn
        simp [State.atLast]; omega
      rw [processBlock_open hl] at hs
      have hidx : (s.idx + 1#24).toNat = s.idx.toNat + 1 := by
        have := s.nblk.isLt
        simp only [List.length_cons] at hn
        rw [BitVec.toNat_add, BitVec.toNat_ofNat]; omega
      obtain ⟨t, ht, he⟩ := ih (State.respond (State.advance { s with moves := [], din := x.toList } (nextChain s.mode s.dir s.chain x
          (outputBlock Config.primitive s.mode s.dir s.key s.chain x)))
          ⟨okDataWord, some (outputBlock Config.primitive s.mode s.dir s.key s.chain x)⟩)
        (out ++ (outputBlock Config.primitive s.mode s.dir s.key s.chain x).toList) hb (by simp)
        (by simp only [State.respond_toElements, State.advance_toElements, hidx]; simp only [List.length_cons] at hn ⊢; omega)
      refine ⟨t, ?_, by simpa using he⟩
      rw [List.map_cons, drive_cons hs rfl (errb_okData _)]
      simpa [Response.bytes, stream, bytesOf_cons] using ht

theorem decode_ivldWord : decode (encode .ivld) = .ok .ivld := by decide
theorem plen_ivldWord : plen (encode .ivld) = Config.B := by decide
theorem decode_ivclrWord : decode (encode .ivclr) = .ok .ivclr := by decide
theorem plen_ivclrWord : plen (encode .ivclr) = 0 := by decide

/-- A word that hits a row of another opcode does not exist. -/
theorem misses {r : OpRow} {w : Word} (hr : r ∈ opRows) (h : opcodeField w ≠ opcodeField r.pattern) : r.hits w = false := by
  by_contra hc
  exact h (opcode_of_hits hr (by simpa using hc))

theorem decode_keyldWord (n : BitVec 8) : decode (encode (.keyld n)) = .ok (.keyld n) := by revert n; decide

theorem plen_keyldWord (n : BitVec 8) : plen (encode (.keyld n)) = n.toNat := by
  simp [plen, encode]

theorem decode_startWord (f : BitVec 2) (d : Dir) (len : Len) : decode (encode (.start f d len)) = .ok (.start f d len) := by
  have ho : opcodeField (encode (.start f d len)) = 4#4 := by simp [encode]
  have h1 : rowKeyld.hits (encode (.start f d len)) = false := misses (by decide) (by rw [ho]; decide)
  have h2 : rowIvld.hits (encode (.start f d len)) = false := misses (by decide) (by rw [ho]; decide)
  have h3 : rowIvclr.hits (encode (.start f d len)) = false := misses (by decide) (by rw [ho]; decide)
  have h4 : rowStart.hits (encode (.start f d len)) = true := Laws.EncodeHitsItsRow.start f d len
  simp only [decode, h1, h2, h3, h4, Bool.false_eq_true, if_false, if_true]
  simp [encode]

theorem plen_startWord (f : BitVec 2) (d : Dir) (len : Len) : plen (encode (.start f d len)) = 0 := by
  simp [plen, encode]

/-- KEYLD alone (40_setup_commands.md R100). -/
theorem step_keyld (s : State) (k : List Byte) (hk : k.length < 256) :
    step { s with moves := [keyldMove k] } = execKeyld (BitVec.ofNat 8 k.length) { s with moves := [], din := k } := by
  rw [keyldMove, step_alone s ⟨.keyld (BitVec.ofNat 8 k.length), k⟩ _ (decode_keyldWord _), exec]
  rw [plen_keyldWord, BitVec.toNat_ofNat, Nat.mod_eq_of_lt hk]

/-- IVLD or IVCLR alone, while idle (40_setup_commands.md R101, R102). -/
theorem step_iv (s : State) (v : Option Block) (hb : s.busy = false) :
    ∃ t, step { s with moves := [ivMove v] } = .next t ∧ t.rsp = s.rsp ++ [⟨okWord, none⟩] ∧
      t.toElements = { s.toElements with iv := v.getD Block.zeros, ivv := v.isSome } := by
  cases v with
  | none =>
    rw [ivMove, step_alone s ⟨.ivclr, []⟩ .ivclr decode_ivclrWord (by rw [plen_ivclrWord]; rfl), exec, execIvclr]
    exact ⟨_, by rw [if_neg (by simp [hb])]; rfl, rfl, rfl⟩
  | some v =>
    rw [ivMove, step_alone s ⟨.ivld, v.toList⟩ .ivld decode_ivldWord (by rw [plen_ivldWord, Vector.length_toList]), exec, execIvld]
    exact ⟨_, by rw [if_neg (by simp [hb]), blockOf_toList]; rfl, rfl, rfl⟩

/-- START alone (41_operation_commands.md R122). -/
theorem step_start (s : State) (f : BitVec 2) (d : Dir) (n : Nat) :
    step { s with moves := [startMove f d n] } = execStart f d (BitVec.ofNat 24 n) { s with moves := [], din := [] } := by
  rw [startMove, step_alone s ⟨.start f d (BitVec.ofNat 24 n), []⟩ _ (decode_startWord f d _) (by rw [plen_startWord]; rfl), exec]

/-- Driving an accepted operation over whole blocks: the output is the stream from the first chain value, and the engine is idle again with everything else as it was. -/
theorem drive_operation (s : State) (f : BitVec 2) (m : Mode) (d : Dir) (xs : List Block) (out : List Byte) (hf : modeOf f = some m)
    (hne : xs ≠ []) (hlen : (bytesOf xs).length < 2 ^ 24) (hb : s.busy = false) (hk : s.keyv = true)
    (hv : m = .cbc → s.ivv = true) :
    ∃ t, drive s out (operationMoves f d (bytesOf xs)) =
        some (.output (out ++ bytesOf (stream Config.primitive m d s.key (firstChain m s.iv) xs)), t) ∧
      t.toElements =
        { s.toElements with busy := false, mode := .ecb, dir := .enc, nblk := 0#24, idx := 0#24, chain := Block.zeros } := by
  have hlen' := bytesOf_length xs
  have hpos : 0 < xs.length := List.length_pos_iff.2 hne
  have hn : (BitVec.ofNat 24 (bytesOf xs).length).toNat = xs.length * 16 := by
    rw [BitVec.toNat_ofNat, Nat.mod_eq_of_lt hlen, hlen']
  have ha : Accepts { s with moves := [], din := [] } m (BitVec.ofNat 24 (bytesOf xs).length) := by
    refine ⟨hb, hk, ?_, ?_, hv⟩ <;> rw [hn] <;> simp only [Config.B] <;> omega
  have hs := step_start s f d (bytesOf xs).length
  rw [execStart_accepts d hf ha] at hs
  rw [operationMoves, drive_cons hs rfl (errb_ok _), blkMoves_bytesOf]
  obtain ⟨t, ht, he⟩ := drive_blks xs (State.respond (State.openOperation { s with moves := [], din := [] } m d
    (BitVec.ofNat 24 (bytesOf xs).length)) ⟨okWord, none⟩) out rfl hne (by
      simp only [State.respond_toElements, State.openOperation_toElements, blockCount_toNat, hn, Config.B]; simp)
  exact ⟨t, by simpa [Response.bytes] using ht, by simpa using he⟩

/-- The start of a run: an accepted key and the IV operand are loaded, whatever the idle state was. -/
theorem drive_setup (s : State) (k : Block) (v : Option Block) (ms : List HostMove) (out : List Byte) (hb : s.busy = false) :
    ∃ t, drive s out (keyldMove k.toList :: ivMove v :: ms) = drive t out ms ∧
      t.toElements = { s.toElements with key := k, keyv := true, iv := v.getD Block.zeros, ivv := v.isSome } := by
  have hs := step_keyld s k.toList (by simp [Config.B])
  rw [execKeyld, if_neg (by simp [hb]), if_neg (by simp [Config.keyOK, Config.B])] at hs
  simp only [blockOf_toList, respondOk_eq] at hs
  obtain ⟨t, h1, h2, h3⟩ := step_iv (State.respond (State.loadKey { s with moves := [], din := k.toList } k) ⟨okWord, none⟩) v hb
  refine ⟨t, ?_, by rw [h3]; rfl⟩
  rw [drive_cons hs rfl (errb_ok _), drive_cons h1 h2 (errb_ok _)]
  simp [Response.bytes]

/-- A whole accepted run over blocks (42_buffer_operations.md R160): the output is the stream of its operation. -/
theorem run_accepted (s : State) (f : BitVec 2) (m : Mode) (d : Dir) (k : Block) (v : Option Block) (xs : List Block)
    (hf : modeOf f = some m) (hne : xs ≠ []) (hlen : (bytesOf xs).length < 2 ^ 24) (hb : s.busy = false)
    (hv : m = .cbc → v.isSome = true) :
    ∃ t, run s f d k.toList v (bytesOf xs) =
      some (.output (bytesOf (stream Config.primitive m d k (firstChain m (v.getD Block.zeros)) xs)), t) := by
  obtain ⟨u, hu, he⟩ := drive_setup s k v (operationMoves f d (bytesOf xs)) [] hb
  obtain ⟨t, ht, -⟩ := drive_operation u f m d xs [] hf hne hlen (by rw [he]; exact hb) (by rw [he]) (by rw [he]; exact hv)
  refine ⟨t, ?_⟩
  rw [run_eq_drive, runMoves, hu, ht, he]
  simp

/-- Driving some of the blocks of an open operation, not to its end: it stays open, with as many blocks processed. -/
theorem drive_blks_open (xs : List Block) (s : State) (out : List Byte) (hb : s.busy = true)
    (hn : s.idx.toNat + xs.length < s.nblk.toNat) :
    ∃ t, drive s out (xs.map fun x => blkMove x.toList) =
        some (.output (out ++ bytesOf (stream Config.primitive s.mode s.dir s.key s.chain xs)), t) ∧
      t.busy = true ∧ t.idx.toNat = s.idx.toNat + xs.length := by
  induction xs generalizing s out with
  | nil => exact ⟨s, by simp [stream], hb, rfl⟩
  | cons x xs ih =>
    simp only [List.length_cons] at hn ⊢
    have hs := step_blk s x hb
    have hl : State.atLast { s with moves := [], din := x.toList } = false := by
      simp [State.atLast]; omega
    rw [processBlock_open hl] at hs
    have hidx : (s.idx + 1#24).toNat = s.idx.toNat + 1 := by
      have := s.nblk.isLt
      rw [BitVec.toNat_add, BitVec.toNat_ofNat]; omega
    obtain ⟨t, ht, hb', hi⟩ := ih (State.respond (State.advance { s with moves := [], din := x.toList } (nextChain s.mode s.dir s.chain x
        (outputBlock Config.primitive s.mode s.dir s.key s.chain x)))
        ⟨okDataWord, some (outputBlock Config.primitive s.mode s.dir s.key s.chain x)⟩)
      (out ++ (outputBlock Config.primitive s.mode s.dir s.key s.chain x).toList) hb
      (by simp only [State.respond_toElements, State.advance_toElements, hidx]; omega)
    refine ⟨t, ?_, hb', by rw [hi]; simp only [State.respond_toElements, State.advance_toElements, hidx]; omega⟩
    rw [List.map_cons, drive_cons hs rfl (errb_okData _)]
    simpa [Response.bytes, stream, bytesOf_cons] using ht

/-- The transform of the first blocks is the start of the transform. -/
theorem stream_take (Q : Primitive) (m : Mode) (d : Dir) (k c : Block) (xs : List Block) (n : Nat) :
    stream Q m d k c (xs.take n) = (stream Q m d k c xs).take n := by
  induction xs generalizing c n with
  | nil => simp [stream]
  | cons x xs ih => cases n <;> simp [stream, ih]

end Sys2Proof.Machine
end

