-- ==== Sys2Proof/Tests/Slice0.lean ====
section
/-! SUPPORT. The model's own tests, with expected results from spec/ (95_test_vectors.md T1 to T63 unless a line says otherwise), and for every statement with hypotheses a witness that meets them. -/

namespace Sys2Proof.Machine

-- Constants of 95_test_vectors.md

def cK : Block := #v[0x00, 0x01, 0x02, 0x03, 0x04, 0x05, 0x06, 0x07, 0x08, 0x09, 0x0a, 0x0b, 0x0c, 0x0d, 0x0e, 0x0f]
def cV : Block := #v[0x0f, 0x0e, 0x0d, 0x0c, 0x0b, 0x0a, 0x09, 0x08, 0x07, 0x06, 0x05, 0x04, 0x03, 0x02, 0x01, 0x00]
def cP0 : Block := #v[0x00, 0x11, 0x22, 0x33, 0x44, 0x55, 0x66, 0x77, 0x88, 0x99, 0xaa, 0xbb, 0xcc, 0xdd, 0xee, 0xff]
def cP1 : Block := #v[0x01, 0x23, 0x45, 0x67, 0x89, 0xab, 0xcd, 0xef, 0xfe, 0xdc, 0xba, 0x98, 0x76, 0x54, 0x32, 0x10]

-- WellFormed: an ill-formed command for each check, which the check refuses (20_memory.md R55)

theorem test_wellFormed_keyld_short : Command.wellFormed ⟨.keyld 16#8, List.replicate 15 0#8⟩ = false := by decide
theorem test_wellFormed_ivld_empty : Command.wellFormed ⟨.ivld, []⟩ = false := by decide
theorem test_wellFormed_ivclr_payload : Command.wellFormed ⟨.ivclr, [0#8]⟩ = false := by decide
theorem test_wellFormed_start_payload : Command.wellFormed ⟨.start 0#2 .enc 16#24, [0#8]⟩ = false := by decide
theorem test_wellFormed_blk_long : Command.wellFormed ⟨.blk, List.replicate 17 0#8⟩ = false := by decide
theorem test_wellFormed_errclr_payload : Command.wellFormed ⟨.errclr, [0#8]⟩ = false := by decide
theorem test_wellFormed_accepts : Command.wellFormed ⟨.blk, cP0.toList⟩ = true := by decide

-- Decode: a word written out bit by bit from 30_encoding.md R71 for each command, and reserved words

theorem test_decode_keyld : decode 0b0001_00000000000000000000_00011000#32 = .ok (.keyld 24#8) := by decide
theorem test_decode_ivld : decode 0b0010_0000000000000000000000000000#32 = .ok .ivld := by decide
theorem test_decode_ivclr : decode 0b0011_0000000000000000000000000000#32 = .ok .ivclr := by decide
theorem test_decode_start : decode 0b0100_01_1_0_000000000000000000100000#32 = .ok (.start 1#2 .dec 32#24) := by decide
theorem test_decode_blk : decode 0b0101_0000000000000000000000000000#32 = .ok .blk := by decide
theorem test_decode_errclr : decode 0b0110_0000000000000000000000000000#32 = .ok .errclr := by decide
theorem test_decode_start_bit24 : decode 0b0100_01_0_1_000000000000000000010000#32 = .error (.zeroField 4#4) := by decide
theorem test_decodeTableWord : decodeTableWord 32 0x4E000010 = some (.start 3#2 .dec 16#24) := by decide
/-- T7, T57, T59: a reserved word still has its payload length. -/
theorem test_plen_reserved : plen 0x10000110#32 = 16 ∧ plen 0x10000100#32 = 0 ∧ plen 0x58000000#32 = 16 ∧ plen 0xFFFFFFFF#32 = 0 := by decide
/-- Each opcode-table row runs as the first command after reset. -/
theorem test_withFetchWord :
    step (State.reset.withFetchWord 32 0x50000000) = exec .blk { State.reset with din := List.replicate 16 0#8 } := by rfl

-- Small states

/-- Idle with key K and, when asked, IV V. -/
def idleWith (iv : Bool) : State :=
  { State.reset with key := cK, keyv := true, iv := if iv then cV else Block.zeros, ivv := iv }

/-- Busy with key K and IV V: an operation of `n` blocks at block `i`, payload `x` on DIN. -/
def busyWith (m : Mode) (d : Dir) (chain : Block) (n i : Len) (x : Block) : State :=
  { idleWith true with busy := true, mode := m, dir := d, chain := chain, nblk := n, idx := i, din := x.toList }

/-- The next state of a result, to read fields of. -/
def after : Result → State
  | .next t => t
  | .fault _ => State.reset
  | .refused _ => State.reset

-- The commands

/-- T1. -/
theorem test_keyld_loads :
    (after (execKeyld 16#8 { State.reset with din := cK.toList })).toElements = { State.reset.toElements with key := cK, keyv := true } := by decide
/-- T3: the old key stays. -/
theorem test_keyld_bad_length :
    (after (execKeyld 32#8 { idleWith false with din := cK.toList ++ cK.toList })).toElements = { (idleWith false).toElements with err := 1#8 } := by decide
/-- T9: an all-zero IV is present. -/
theorem test_ivld_zero :
    (after (execIvld { idleWith true with din := (Block.zeros : Block).toList })).toElements =
      { (idleWith true).toElements with iv := Block.zeros, ivv := true } := by decide
/-- T10. -/
theorem test_ivclr : (after (execIvclr (idleWith true))).toElements = (idleWith false).toElements := by decide
/-- T12. -/
theorem test_errclr : (after (execErrclr { idleWith false with err := 4#8 })).status = 0x00000001#32 := by decide
/-- T22. -/
theorem test_start_cbc :
    (after (execStart 1#2 .enc 32#24 (idleWith true))).toElements =
      { (idleWith true).toElements with busy := true, mode := .cbc, nblk := 2#24, chain := cV } := by decide
/-- T31b, T31c, T31d, T30: which error is reported. -/
theorem test_start_ranking :
    (after (execStart 1#2 .enc 0#24 State.reset)).err = 1#8 ∧ (after (execStart 1#2 .enc 5#24 (idleWith false))).err = 2#8 ∧
    (after (execStart 1#2 .enc 17#24 (idleWith false))).err = 3#8 ∧ (after (execStart 2#2 .enc 16#24 (idleWith false))).err = 7#8 := by decide

-- TOY, the test primitive of 95_test_vectors.md V3

def tabulate (f : Nat → Byte) : Block := ⟨((List.range 16).map f).toArray, by simp⟩

theorem getElem_tabulate (f : Nat → Byte) (j : Nat) (h : j < 16) : (tabulate f)[j] = f j := by simp [tabulate]

def toyE (k x : Block) : Block := tabulate fun j =>
  5#8 * (x[(j + 1) % 16]'(Nat.mod_lt _ (by decide)) ^^^ k[(j + 1) % 16]'(Nat.mod_lt _ (by decide))) + BitVec.ofNat 8 j + 1#8

def toyD (k y : Block) : Block := tabulate fun j =>
  (205#8 * (y[(j + 15) % 16]'(Nat.mod_lt _ (by decide)) - BitVec.ofNat 8 ((j + 15) % 16) - 1#8)) ^^^ k[j % 16]'(Nat.mod_lt _ (by decide))

theorem toy_byte_D_E (x k c : Byte) : (205#8 * (5#8 * (x ^^^ k) + c + 1#8 - c - 1#8)) ^^^ k = x := by
  have : 5#8 * (x ^^^ k) + c + 1#8 - c - 1#8 = 5#8 * (x ^^^ k) := by ring
  rw [this, ← BitVec.mul_assoc, show 205#8 * 5#8 = 1#8 from by decide, BitVec.one_mul]
  simp

theorem toy_byte_E_D (y k c : Byte) : 5#8 * (((205#8 * (y - c - 1#8)) ^^^ k) ^^^ k) + c + 1#8 = y := by
  rw [BitVec.xor_assoc, BitVec.xor_self, BitVec.xor_zero, ← BitVec.mul_assoc, show 5#8 * 205#8 = 1#8 from by decide, BitVec.one_mul]
  ring

theorem toyD_toyE (k x : Block) : toyD k (toyE k x) = x := by
  refine Vector.ext fun j h => ?_
  have h1 : ((j + 15) % 16 + 1) % 16 = j := by simp only [Config.B] at h; omega
  have h2 : j % 16 = j := Nat.mod_eq_of_lt h
  rw [toyD, getElem_tabulate _ _ h, toyE, getElem_tabulate _ _ (Nat.mod_lt _ (by decide))]
  simp only [h1, h2]
  exact toy_byte_D_E _ _ _

theorem toyE_toyD (k y : Block) : toyE k (toyD k y) = y := by
  refine Vector.ext fun j h => ?_
  have h1 : ((j + 1) % 16 + 15) % 16 = j := by simp only [Config.B] at h; omega
  have h2 : (j + 1) % 16 % 16 = (j + 1) % 16 := Nat.mod_mod _ _
  rw [toyE, getElem_tabulate _ _ h, toyD, getElem_tabulate _ _ (Nat.mod_lt _ (by decide))]
  simp only [h1, h2]
  exact toy_byte_E_D _ _ _

/-- TOY is one of the primitives the spec allows, so the free value's type has a non-trivial member. -/
def toy : Primitive := fun k => ⟨toyE k, toyD k, toyD_toyE k, toyE_toyD k⟩

/-- T45 and T50: BLK while idle, and the last block of the longest operation. -/
theorem test_blk_control :
    (after (blkOver toy { idleWith false with din := cP0.toList })).err = 9#8 ∧
    (after (blkOver toy (busyWith .ecb .enc Block.zeros 1048575#24 1048574#24 cP0))).toElements = (idleWith true).toElements := by decide
/-- P2, commands 4, 8 and T33, T34: the four block transforms over TOY. -/
theorem test_blk_transforms :
    (after (blkOver toy (busyWith .ecb .enc Block.zeros 2#24 0#24 cP0))).rsp =
      [⟨0x40000000#32, some #v[0x51, 0xa2, 0xf3, 0x44, 0x95, 0xe6, 0x37, 0x88, 0xd9, 0x2a, 0x7b, 0xcc, 0x1d, 0x6e, 0xbf, 0x10]⟩] ∧
    (after (blkOver toy (busyWith .ecb .dec Block.zeros 1#24 0#24 cP0))).rsp =
      [⟨0x60000000#32, some #v[0x63, 0x32, 0x01, 0xd0, 0xa7, 0x76, 0x45, 0x14, 0xeb, 0xba, 0x89, 0x58, 0x2f, 0xfe, 0xcd, 0x9c]⟩] ∧
    (after (blkOver toy (busyWith .cbc .enc cV 2#24 0#24 cP0))).chain =
      #v[0x97, 0xe3, 0x2f, 0x7b, 0xc7, 0x13, 0x5f, 0xab, 0xf7, 0x43, 0x8f, 0xdb, 0x27, 0x73, 0xbf, 0x5b] ∧
    (after (blkOver toy (busyWith .cbc .dec #v[0x97, 0xe3, 0x2f, 0x7b, 0xc7, 0x13, 0x5f, 0xab, 0xf7, 0x43, 0x8f, 0xdb, 0x27, 0x73, 0xbf, 0x5b] 2#24 1#24
      #v[0xc6, 0x0a, 0x9e, 0x76, 0xb6, 0xea, 0x56, 0x0d, 0xf7, 0x45, 0x73, 0xdd, 0xdf, 0x9d, 0x63, 0xfe]))).rsp =
      [⟨0x60000000#32, some cP1⟩] := by decide

-- Status words (95_test_vectors.md V11), reset, the assembler

theorem test_status :
    State.reset.status = 0#32 ∧ (busyWith .cbc .dec cV 2#24 1#24 cP0).status = 0x0000001f#32 ∧
    (busyWith .cbc .dec cV 2#24 1#24 cP0).nblkWord = 2#32 ∧ (busyWith .cbc .dec cV 2#24 1#24 cP0).idxWord = 1#32 ∧
    (busyWith .ecb .dec cV 2#24 1#24 cP0).status = 0x00000017#32 ∧
    Elements.status { (idleWith false).toElements with err := 4#8 } = 0x00000421#32 := by decide
/-- T60. -/
theorem test_reset_mid_operation : (busyWith .cbc .enc cV 3#24 1#24 cP0).hostReset.toElements = State.reset.toElements := by decide
theorem test_assembler_run :
    assembleText "ENCRYPT ECB, 000102030405060708090a0b0c0d0e0f, -, 00112233445566778899AABB ccddeeff 01 ; 17 bytes" =
      some [.issue 0x10000010#32 cK.toList, .issue 0x30000000#32 [], .issue 0x40000011#32 [], .issue 0x50000000#32 cP0.toList] := by decide
theorem test_assembler_program : assembleProgram ["; nothing", "IVCLR", "  ERRCLR ; done"] =
    some [.issue 0x30000000#32 [], .issue 0x60000000#32 []] := by decide

/-- The word without bytes, where its payload length is not 0 (entry 14) and where it is. -/
theorem test_assembler_word : assembleText ".word 0x50000000" = none ∧ assembleText ".word 0x30000001" = some [.issue 0x30000001#32 []] := by decide

/-- A driven reset repeats no earlier answer's block, and a payload cut short is no command (20_memory.md R61; entry 17). -/
theorem test_drive_without_response :
    drive { State.reset with rsp := [⟨0x40000000#32, some cP0⟩] } [] [.reset, .issue 0x60000000#32 []] =
      some (.output [], { State.reset with rsp := [⟨0x40000000#32, some cP0⟩, ⟨0x00000000#32, none⟩] }) ∧
    drive State.reset [] [.issue 0x60000000#32 [], .issue 0x20000000#32 [0]] = none := ⟨rfl, rfl⟩

-- Another block size (00_scope.md R4): blocks of 2 bytes, the identity as primitive

/-- Busy in CBC decryption over blocks of 2 bytes, block 0 of 2, with a whole BLK and then a reset to come. -/
def busyOfTwo : State 2 :=
  { State.resetOf 2 with
    key := #v[1, 2], keyv := true, iv := #v[3, 4], ivv := true, chain := #v[3, 4], busy := true, mode := .cbc, dir := .dec, nblk := 2#24,
    moves := [.issue 0x50000000#32 [0xF0, 0x0F], .reset] }

/-- R129 and R133 at B = 2: P[0] = D(k, C[0]) XOR IV, and the chain takes the input block. -/
theorem test_blk_of_two :
    ∃ t, stepOver (fun _ => Equiv.refl _) busyOfTwo = .next t ∧ t.rsp = [⟨0x40000000#32, some #v[0xF3, 0x0B]⟩] ∧ t.chain = #v[0xF0, 0x0F] ∧
      t.idx = 1#24 := ⟨_, rfl, by decide, by decide, by decide⟩

/-- R122 at B = 2: a length of 3 bytes is misaligned, one of 6 bytes opens 3 blocks. -/
theorem test_start_of_two :
    (∃ t, execStart 0#2 .enc 3#24 { busyOfTwo with busy := false } = .next t ∧ t.err = 3#8) ∧
    ∃ t, execStart 0#2 .enc 6#24 { busyOfTwo with busy := false } = .next t ∧ t.nblk = 3#24 :=
  ⟨⟨_, rfl, by decide⟩, _, rfl, by decide⟩

-- Witnesses: encoding

theorem witness_EncodeOfDecodedIsTheWord : decode 0x46FFFFFF#32 = .ok (.start 1#2 .dec 0xFFFFFF#24) := by decide
theorem witness_ReservedWords_rejected :
    ∀ w ∈ [0x0FFFFFFF#32, 0x70000000#32, 0xF0000000#32, 0x10000100#32, 0x18000000#32, 0x20000001#32, 0x38000000#32, 0x50000001#32, 0x60000001#32,
      0x41000000#32, 0x4FFFFFFF#32], ∃ r, decode w = .error r := by
  simp only [List.forall_mem_cons]
  exact ⟨⟨_, rfl⟩, ⟨_, rfl⟩, ⟨_, rfl⟩, ⟨_, rfl⟩, ⟨_, rfl⟩, ⟨_, rfl⟩, ⟨_, rfl⟩, ⟨_, rfl⟩, ⟨_, rfl⟩, ⟨_, rfl⟩, ⟨_, rfl⟩, by simp⟩
theorem witness_ReservedWords_accepted :
    decode 0x100000FF#32 = .ok (.keyld 255#8) ∧ decode 0x10000000#32 = .ok (.keyld 0#8) ∧ decode 0x4EFFFFFF#32 = .ok (.start 3#2 .dec 0xFFFFFF#24) ∧
    decode 0x40000000#32 = .ok (.start 0#2 .enc 0#24) := by decide
theorem witness_PayloadLengthOfAWord :
    plen 0x1FFFFFFF#32 = 255 ∧ plen 0x10000000#32 = 0 ∧ plen 0x2FFFFFFF#32 = 16 ∧ plen 0x50000000#32 = 16 ∧ plen 0x4FFFFFFF#32 = 0 ∧
    plen 0x3000000F#32 = 0 ∧ plen 0x6000000F#32 = 0 ∧ plen 0x0FFFFFFF#32 = 0 ∧ decode 0x50000000#32 = .ok .blk := by decide

-- Witnesses: steps

/-- The state `s` with the host moves `ms`. -/
def withMoves (s : State) (ms : List HostMove) : State := { s with moves := ms }

/-- Busy in CBC with one more move. -/
def busyNow (ms : List HostMove) : State := withMoves (busyWith .cbc .enc cV 2#24 0#24 cP0) ms

theorem witness_HostResetZeroesEveryElement : (busyNow [.reset]).moves = [.reset] := rfl
theorem witness_StatusWords_port : 3 ≤ 3 ∧ State.reset.statusPort 3 = none := by decide
theorem witness_EveryStepKeepsTheElementsLegal :
    Elements.Legal (busyNow [.issue 0x60000000#32 []]).toElements ∧ (∃ t, step (busyNow [.issue 0x60000000#32 []]) = .next t) ∧
    ∃ t, Host.Core.run Sys2Proof.core 2 { State.reset with moves := [.issue 0x60000000#32 [], .reset] } = .next t :=
  ⟨by decide, ⟨_, rfl⟩, _, rfl⟩
theorem witness_ElementsAreWrittenOnlyByTheirCommands :
    (∃ t, exec .errclr (busyNow []) = .next t) ∧ (∃ t, exec (.keyld 16#8) { State.reset with din := cK.toList } = .next t) ∧
    ∃ t, exec .blk (busyNow []) = .next t :=
  ⟨⟨_, rfl⟩, ⟨_, rfl⟩, _, rfl⟩
/-- ERR: a command answered with ERRB = 0, one answered with ERRB = 1, and ERRCLR. -/
theorem witness_ElementsAreWritten_err :
    ((after (exec .ivclr State.reset)).rsp.map Response.errb) = [false] ∧ ((after (exec .ivclr (busyNow []))).rsp.map Response.errb) = [true] ∧
    (after (exec .errclr { State.reset with err := 9#8 })).err = 0#8 := by decide
theorem witness_ErrIsReadByNoCommand : ∃ t, exec (.start 1#2 .enc 16#24) { idleWith true with err := 7#8 } = .next t := ⟨_, rfl⟩
theorem witness_EcbIgnoresTheIv :
    (∃ t, exec (.start 0#2 .enc 16#24) (idleWith false) = .next t) ∧ ∃ t, exec .blk (busyWith .ecb .dec Block.zeros 1#24 0#24 cP0) = .next t :=
  ⟨⟨_, rfl⟩, _, rfl⟩
theorem witness_StepRunsTheDecodedCommand :
    (busyNow [.issue 0x50000000#32 cP0.toList]).moves = [.issue 0x50000000#32 cP0.toList] ∧ cP0.toList.length = plen 0x50000000#32 ∧
    decode 0x50000000#32 = .ok .blk := by decide
theorem witness_ReservedWordFailsWithBadCommand :
    (busyNow [.issue 0x50000001#32 cP0.toList]).moves = [.issue 0x50000001#32 cP0.toList] ∧ cP0.toList.length = plen 0x50000001#32 ∧
    decode 0x50000001#32 = .error (.zeroField 5#4) := by decide
theorem witness_IncompleteCommandsDoNothing :
    (busyNow []).moves = [] ∧ (List.replicate 15 0#8).length < plen 0x50000000#32 ∧
    (busyNow [.issue 0x50000000#32 (List.replicate 15 0#8)]).moves = [.issue 0x50000000#32 (List.replicate 15 0#8)] ∧
    (busyNow [.issue 0x50000000#32 (List.replicate 15 0#8), .reset]).moves = [.issue 0x50000000#32 (List.replicate 15 0#8), .reset] := by decide
theorem witness_IllFramedMovesAreRefused :
    plen 0x30000000#32 < [0#8].length ∧ (busyNow [.issue 0x30000000#32 [0#8]]).moves = [.issue 0x30000000#32 [0#8]] ∧
    ([] : List Byte).length < plen 0x10000001#32 ∧
    (busyNow [.issue 0x10000001#32 [], .issue 0x30000000#32 []]).moves = [.issue 0x10000001#32 [], .issue 0x30000000#32 []] := by decide
/-- Both a failing and a succeeding command (EveryCommandIsAnsweredOnce), and a reserved, an out-of-sequence and an in-sequence one (SequenceTable). -/
theorem witness_EveryCommandIsAnsweredOnce_SequenceTable :
    ([] : List Byte).length = plen 0x70000000#32 ∧ ([] : List Byte).length = plen 0x30000000#32 ∧ ([] : List Byte).length = plen 0x60000000#32 ∧
    ((after (step (busyNow [.issue 0x70000000#32 []]))).rsp.map Response.word) = [0x80000008#32] ∧
    ((after (step (busyNow [.issue 0x30000000#32 []]))).rsp.map Response.word) = [0x80000009#32] ∧
    ((after (step (busyNow [.issue 0x60000000#32 []]))).rsp.map Response.word) = [0x00000000#32] ∧
    ((after (step (withMoves (idleWith false) [.issue 0x50000000#32 cP0.toList]))).rsp.map Response.word) = [0x80000009#32] := by decide
theorem witness_FramedStatesStepSafely : (busyNow [.issue 0x50000000#32 cP0.toList, .reset]).Framed := by decide
theorem witness_AnswersStayLegal :
    Response.Legal ⟨0x60000000#32, some cP0⟩ ∧ (busyNow [.issue 0x50000000#32 cP0.toList]).AnswersLegal ∧
    ∃ t, step (busyNow [.issue 0x50000000#32 cP0.toList]) = .next t :=
  ⟨by decide, by decide, _, rfl⟩
/-- An opening, a closing by the last block, and a closing by reset. -/
theorem witness_BusyChangesOnlyByStartLastBlockOrReset :
    (∃ t, step (withMoves (idleWith false) [.issue 0x40000010#32 []]) = .next t ∧ (idleWith false).busy = false ∧ t.busy = true) ∧
    (∃ t, step (withMoves (busyWith .cbc .enc cV 2#24 1#24 cP0) [.issue 0x50000000#32 cP0.toList]) = .next t ∧ t.busy = false) ∧
    ∃ t, step (busyNow [.reset]) = .next t ∧ t.busy = false :=
  ⟨⟨_, rfl, rfl, rfl⟩, ⟨_, rfl, rfl⟩, _, rfl, rfl⟩

-- Witnesses: the commands

theorem witness_KeyldLoadsTheKey :
    State.reset.busy = false ∧ State.din { State.reset with din := cK.toList } = cK.toList ∧ (busyNow []).busy = true ∧ 15#8 ≠ 16#8 ∧ 17#8 ≠ 16#8 := by decide
theorem witness_IvldLoadsTheIv :
    State.reset.busy = false ∧ State.din { State.reset with din := cV.toList } = cV.toList ∧ (busyNow []).busy = true := by decide
theorem witness_IvclrClearsTheIv : (idleWith true).busy = false ∧ (busyNow []).busy = true := by decide
theorem witness_SetupCommandsCommute : (idleWith true).busy = false := rfl
theorem witness_AcceptedStartCompletes :
    (idleWith true).busy = false ∧ (1#2).toNat < 2 ∧ (idleWith true).keyv = true ∧ 1 ≤ 1048575 ∧ 1048575 ≤ 1048575 ∧ 1 ≤ 1 ∧ (idleWith true).ivv = true := by
  decide
theorem witness_CountersNeverOverflow :
    (∃ t, exec (.start 0#2 .enc 0xFFFFF0#24) (idleWith false) = .next t ∧ (idleWith false).busy = false ∧ t.busy = true) ∧
    Elements.Legal (busyNow []).toElements ∧ ∃ t, exec .blk (busyNow []) = .next t ∧ t.busy = true :=
  ⟨⟨_, rfl, rfl, rfl⟩, by decide, _, rfl, rfl⟩
/-- For each mode and direction a busy state with a block on DIN, one at the last block and one before it. -/
theorem witness_BlkEcbCbcEncryptDecrypt (m : Mode) (d : Dir) :
    (busyWith m d cV 2#24 0#24 cP0).busy = true ∧ (busyWith m d cV 2#24 0#24 cP0).mode = m ∧ (busyWith m d cV 2#24 0#24 cP0).dir = d ∧
    (busyWith m d cV 2#24 0#24 cP0).din = cP0.toList ∧
    (busyWith m d cV 2#24 0#24 cP0).atLast = false ∧ (busyWith m d cV 1048575#24 1048574#24 cP0).atLast = true :=
  ⟨rfl, rfl, rfl, rfl, rfl, rfl⟩
theorem witness_BlkWhileIdleFails : (idleWith true).busy = false := rfl
theorem witness_BeatLanes : 0 < [7#8, 9#8].length ∧ 1 < [7#8, 9#8].length ∧ beat [7#8, 9#8] = 0x0907 := by decide

-- Witnesses: whole buffers

/-- A run over blocks from reset is accepted, in every mode and direction. -/
theorem witness_run (f : BitVec 2) (m : Mode) (d : Dir) (v : Option Block) (xs : List Block) (hf : modeOf f = some m) (hne : xs ≠ [])
    (hlen : (bytesOf xs).length < 2 ^ 24) (hv : m = .cbc → v.isSome = true) :
    ∃ t, run State.reset f d cK.toList v (bytesOf xs) =
      some (.output (bytesOf (stream Config.primitive m d cK (firstChain m (v.getD Block.zeros)) xs)), t) :=
  run_accepted State.reset f m d cK v xs hf hne hlen rfl hv

/-- One case of each row of the table of R161, at a boundary of its range. -/
theorem witness_RunOutcomeByCases :
    State.reset.busy = false ∧ (List.replicate 255 0#8).length < 256 ∧ cK.toList.length = 16 ∧ 2 ≤ (2#2).toNat ∧ (bytesOf [cP0]).length = 16 ∧
    (bytesOf [cP0] ++ [0#8]).length % 16 ≠ 0 ∧ (bytesOf [cP0]).length < 2 ^ 24 ∧ (List.replicate 15 0#8).length < 16 :=
  ⟨rfl, by rw [List.length_replicate]; decide, by decide, by decide, by decide, by decide, by decide, by decide⟩
theorem witness_EcbEncryptionOfABuffer : ∃ out t, (bytesOf [cP0, cP1]).length < 2 ^ 24 ∧
    run State.reset 0#2 .enc cK.toList none (bytesOf [cP0, cP1]) = some (.output out, t) :=
  let ⟨t, h⟩ := witness_run 0#2 .ecb .enc none [cP0, cP1] rfl (by simp) (by decide) (by decide); ⟨_, t, by decide, h⟩
theorem witness_EcbDecryptionOfABuffer : ∃ out t, (bytesOf [cP0, cP1]).length < 2 ^ 24 ∧
    run State.reset 0#2 .dec cK.toList none (bytesOf [cP0, cP1]) = some (.output out, t) :=
  let ⟨t, h⟩ := witness_run 0#2 .ecb .dec none [cP0, cP1] rfl (by simp) (by decide) (by decide); ⟨_, t, by decide, h⟩
/-- Block 0 and block 1, so that `prev` is the IV once and the previous block once. -/
theorem witness_CbcEncryptionOfABuffer : ∃ out t, (bytesOf [cP0, cP1]).length < 2 ^ 24 ∧
    run State.reset 1#2 .enc cK.toList (some cV) (bytesOf [cP0, cP1]) = some (.output out, t) ∧
    blk (bytesOf [cP0, cP1]) 0 = some cP0 ∧ blk (bytesOf [cP0, cP1]) 1 = some cP1 :=
  let ⟨t, h⟩ := witness_run 1#2 .cbc .enc (some cV) [cP0, cP1] rfl (by simp) (by decide) (by decide); ⟨_, t, by decide, h, by decide, by decide⟩
theorem witness_CbcDecryptionOfABuffer : ∃ out t, (bytesOf [cP0, cP1]).length < 2 ^ 24 ∧
    run State.reset 1#2 .dec cK.toList (some cV) (bytesOf [cP0, cP1]) = some (.output out, t) ∧
    blk (bytesOf [cP0, cP1]) 0 = some cP0 ∧ blk (bytesOf [cP0, cP1]) 1 = some cP1 :=
  let ⟨t, h⟩ := witness_run 1#2 .cbc .dec (some cV) [cP0, cP1] rfl (by simp) (by decide) (by decide); ⟨_, t, by decide, h, by decide, by decide⟩
theorem witness_RoundTrip :
    State.reset.busy = false ∧ (idleWith true).busy = false ∧ (1#2).toNat < 2 ∧ some cV ≠ none ∧ 16 ≤ (bytesOf [cP0]).length ∧
    (bytesOf [cP0]).length % 16 = 0 ∧ (bytesOf [cP0]).length < 2 ^ 24 ∧ Dir.enc ≠ .dec := by decide
/-- Two equal and two different input blocks. -/
theorem witness_EcbDeterminism : ∃ out out' t t', (bytesOf [cP0, cP1]).length < 2 ^ 24 ∧ (bytesOf [cP0]).length < 2 ^ 24 ∧
    run State.reset 0#2 .enc cK.toList none (bytesOf [cP0, cP1]) = some (.output out, t) ∧
    run State.reset 0#2 .enc cK.toList (some cV) (bytesOf [cP0]) = some (.output out', t') ∧
    0 < (bytesOf [cP0, cP1]).length / 16 ∧ 1 < (bytesOf [cP0, cP1]).length / 16 ∧ 0 < (bytesOf [cP0]).length / 16 ∧
    blk (bytesOf [cP0, cP1]) 0 = blk (bytesOf [cP0]) 0 ∧ blk (bytesOf [cP0, cP1]) 1 ≠ blk (bytesOf [cP0]) 0 :=
  let ⟨t, h⟩ := witness_run 0#2 .ecb .enc none [cP0, cP1] rfl (by simp) (by decide) (by decide)
  let ⟨t', h'⟩ := witness_run 0#2 .ecb .enc (some cV) [cP0] rfl (by simp) (by decide) (by decide)
  ⟨_, _, t, t', by decide, by decide, h, h', by decide, by decide, by decide, by decide, by decide⟩

/-- Two buffers of three blocks that agree below block 1 and differ there. -/
theorem witness_differ_in_block_one (j : Nat) (h : j ≠ 1) : blk (bytesOf [cP0, cP0, cP1]) j = blk (bytesOf [cP0, cV, cP1]) j := by
  rcases j with _ | _ | j
  · decide
  · exact absurd rfl h
  · simp

theorem witness_CbcDiffusion : ∃ out out' t t', (bytesOf [cP0, cP0, cP1]).length = (bytesOf [cP0, cV, cP1]).length ∧
    (bytesOf [cP0, cP0, cP1]).length < 2 ^ 24 ∧
    run State.reset 1#2 .enc cK.toList (some cV) (bytesOf [cP0, cP0, cP1]) = some (.output out, t) ∧
    run State.reset 1#2 .enc cK.toList (some cV) (bytesOf [cP0, cV, cP1]) = some (.output out', t') ∧
    (∀ j < 1, blk (bytesOf [cP0, cP0, cP1]) j = blk (bytesOf [cP0, cV, cP1]) j) ∧
    blk (bytesOf [cP0, cP0, cP1]) 1 ≠ blk (bytesOf [cP0, cV, cP1]) 1 ∧
    (∀ j, 1 < j → blk (bytesOf [cP0, cP0, cP1]) j = blk (bytesOf [cP0, cV, cP1]) j) :=
  let ⟨t, h⟩ := witness_run 1#2 .cbc .enc (some cV) [cP0, cP0, cP1] rfl (by simp) (by decide) (by decide)
  let ⟨t', h'⟩ := witness_run 1#2 .cbc .enc (some cV) [cP0, cV, cP1] rfl (by simp) (by decide) (by decide)
  ⟨_, _, t, t', by decide, by decide, h, h', fun j hj => witness_differ_in_block_one j (by omega), by decide,
    fun j hj => witness_differ_in_block_one j (by omega)⟩
theorem witness_CbcDecryptionLocalEffect : ∃ out out' t t' p p', (bytesOf [cP0, cP0, cP1]).length = (bytesOf [cP0, cV, cP1]).length ∧
    (bytesOf [cP0, cP0, cP1]).length < 2 ^ 24 ∧
    run State.reset 1#2 .dec cK.toList (some cV) (bytesOf [cP0, cP0, cP1]) = some (.output out, t) ∧
    run State.reset 1#2 .dec cK.toList (some cV) (bytesOf [cP0, cV, cP1]) = some (.output out', t') ∧
    blk (bytesOf [cP0, cP0, cP1]) 1 = some cP0 ∧ blk (bytesOf [cP0, cV, cP1]) 1 = some cV ∧ cP0 ≠ cV ∧
    (∀ j, j ≠ 1 → blk (bytesOf [cP0, cP0, cP1]) j = blk (bytesOf [cP0, cV, cP1]) j) ∧ blk out 2 = some p ∧ blk out' 2 = some p' :=
  let ⟨t, h⟩ := witness_run 1#2 .cbc .dec (some cV) [cP0, cP0, cP1] rfl (by simp) (by decide) (by decide)
  let ⟨t', h'⟩ := witness_run 1#2 .cbc .dec (some cV) [cP0, cV, cP1] rfl (by simp) (by decide) (by decide)
  ⟨_, _, t, t', _, _, by decide, by decide, h, h', by decide, by decide, by decide, witness_differ_in_block_one,
    by rw [blk_bytesOf]; rfl, by rw [blk_bytesOf]; rfl⟩
/-- A legal idle state in which an operation of two blocks is accepted; its first BLK leaves it open (OperationLeavesNoTrace, PartialOutputIsAPrefix, OutcomesDependOnNothingElse). -/
theorem witness_operation : ∃ out t, (idleWith true).busy = false ∧ Elements.Legal (idleWith true).toElements ∧
    (bytesOf [cP0, cP1]).length < 2 ^ 24 ∧ 0 ≤ (bytesOf [cP0, cP1]).length / 16 ∧ 1 < (bytesOf [cP0, cP1]).length / 16 ∧
    2 ≤ (bytesOf [cP0, cP1]).length / 16 ∧
    drive (idleWith true) [] (operationMoves 1#2 .dec (bytesOf [cP0, cP1])) = some (.output out, t) :=
  let ⟨t, h, _⟩ := drive_operation (idleWith true) 1#2 .cbc .dec [cP0, cP1] [] rfl (by simp) (by decide) rfl rfl (fun _ => rfl)
  ⟨_, t, rfl, by decide, by decide, by decide, by decide, by decide, h⟩
/-- Two idle states that differ in what no operation may read. -/
theorem witness_OutcomesDependOnNothingElse :
    (idleWith true).busy = false ∧ Elements.busy { (idleWith true).toElements with err := 9#8 } = false ∧
    (idleWith true).toElements ≠ { (idleWith true).toElements with err := 9#8 } := by decide
/-- Dropping and repeating blocks: b is a's last block twice. -/
theorem witness_EcbBlockIndependence : ∃ outA outB t t', (bytesOf [cP0, cP1] ++ bytesOf [cP1, cP1]).length < 2 ^ 24 ∧
    run State.reset 0#2 .enc cK.toList none (bytesOf [cP0, cP1]) = some (.output outA, t) ∧
    run State.reset 0#2 .enc cK.toList none (bytesOf [cP1, cP1]) = some (.output outB, t') ∧
    ∀ j, j < (bytesOf [cP1, cP1]).length / 16 → blk (bytesOf [cP1, cP1]) j = blk (bytesOf [cP0, cP1]) ((fun _ => 1) j) :=
  let ⟨t, h⟩ := witness_run 0#2 .ecb .enc none [cP0, cP1] rfl (by simp) (by decide) (by decide)
  let ⟨t', h'⟩ := witness_run 0#2 .ecb .enc none [cP1, cP1] rfl (by simp) (by decide) (by decide)
  ⟨_, _, t, t', by decide, h, h', by decide⟩
theorem witness_CbcSplitWithReloadedIv (d : Dir) : ∃ outA outB v' t t', (bytesOf [cP0] ++ bytesOf [cP1]).length < 2 ^ 24 ∧
    run State.reset 1#2 d cK.toList (some cV) (bytesOf [cP0]) = some (.output outA, t) ∧
    blk (if d = .enc then outA else bytesOf [cP0]) ((bytesOf [cP0]).length / 16 - 1) = some v' ∧
    run State.reset 1#2 d cK.toList (some v') (bytesOf [cP1]) = some (.output outB, t') :=
  let ⟨t, h⟩ := witness_run 1#2 .cbc d (some cV) [cP0] rfl (by simp) (by decide) (by decide)
  let ⟨t', h'⟩ := witness_run 1#2 .cbc d
    (some (if d = .enc then outputBlock Config.primitive .cbc d cK cV cP0 else cP0)) [cP1] rfl (by simp) (by decide) (fun _ => rfl)
  ⟨_, _, _, t, t', by decide, h, by rw [bytesOf_length]; cases d <;> simp [stream, firstChain], h'⟩
/-- One accepted line of every kind, `.word` with and without bytes among them. -/
theorem witness_AssembledLinesAreFramed :
    ∀ line ∈ [AsmLine.keyld cK.toList, .keyld [], .ivld cV.toList, .ivclr, .start 3#2 .dec 0xFFFFFF, .blk cP0.toList, .errclr,
      .word 0x30000001 [], .word 0x50000001 cP0.toList, .encrypt 0#2 cK.toList none cP0.toList, .decrypt 1#2 cK.toList (some cV.toList) cP0.toList],
      (assemble line).isSome = true := by decide

/-- A block size that is not 16, with a legal busy state whose moves are framed. -/
theorem witness_EveryBlockSizeStepsSafelyAndStaysLegal : 1 ≤ 2 ∧ Elements.Legal busyOfTwo.toElements ∧ busyOfTwo.Framed := by decide

end Sys2Proof.Machine
end

/-! The statements of 00_scope.md: what any whole command answers over any block size and primitive, that every such answer keeps
the engine legal, and what this hardware takes from the family at B = 16. -/

namespace Sys2Proof

/-! ### What a word that decodes looks like -/

/-- Everything the decoder can answer for a word that is not reserved (30_encoding.md R77). -/
theorem decode_cases {w : Word} {i : Instr} (h : decode w = .ok i) :
    (rowKeyld.hits w = true ∧ i = .keyld (nField w)) ∨
    (rowIvld.hits w = true ∧ i = .ivld) ∨
    (rowIvclr.hits w = true ∧ i = .ivclr) ∨
    (rowStart.hits w = true ∧ i = .start (modeField w) (dirField w) (lenField w)) ∨
    (rowBlk.hits w = true ∧ i = .blk) ∨
    (rowErrclr.hits w = true ∧ i = .errclr) := by
  unfold decode at h
  split at h
  · exact .inl ⟨‹_›, by simpa [eq_comm] using h⟩
  split at h
  · exact .inr (.inl ⟨‹_›, by simpa [eq_comm] using h⟩)
  split at h
  · exact .inr (.inr (.inl ⟨‹_›, by simpa [eq_comm] using h⟩))
  split at h
  · exact .inr (.inr (.inr (.inl ⟨‹_›, by simpa [eq_comm] using h⟩)))
  split at h
  · exact .inr (.inr (.inr (.inr (.inl ⟨‹_›, by simpa [eq_comm] using h⟩))))
  split at h
  · exact .inr (.inr (.inr (.inr (.inr ⟨‹_›, by simpa [eq_comm] using h⟩))))
  · cases h

/-- The payload length of a word that decodes is the one its operands ask for, at every block size (30_encoding.md R74). -/
theorem plen_of_decode {w : Word} {i : Instr} (h : decode w = .ok i) (B : Nat) : plen w B = i.payloadLen B := by
  have hop : ∀ {r : OpRow}, r ∈ opRows → r.hits w = true → opcodeField w = opcodeField r.pattern := opcode_of_hits
  rcases decode_cases h with ⟨hr, rfl⟩ | ⟨hr, rfl⟩ | ⟨hr, rfl⟩ | ⟨hr, rfl⟩ | ⟨hr, rfl⟩ | ⟨hr, rfl⟩ <;>
    (unfold plen; rw [hop (by decide) hr]; rfl)

/-- The one word of ERRCLR (30_encoding.md R72). -/
theorem word_of_decode_errclr {w : Word} (h : decode w = .ok .errclr) : w = 0x60000000#32 := by
  have hr : rowErrclr.hits w = true := by simpa using decode_cases h
  have hw : w &&& BitVec.allOnes 32 = 0x60000000#32 := by simpa [OpRow.hits, rowErrclr] using hr
  rwa [BitVec.and_allOnes] at hw

end Sys2Proof

namespace Sys2Proof.Machine

variable {B : Nat} {P : Primitive B} {s u : State B} {i : Instr} {r : Response B}

/-! ### What a whole command answers -/

/-- The command `i` succeeds in `s`: the writes it makes (`u`, the payload not yet consumed) and its response `r`
(40_setup_commands.md R100 to R103; 41_operation_commands.md R122, R129, R134). -/
inductive Succeeds (P : Primitive B) (s : State B) : Instr → State B → Response B → Prop
  | keyld {n : BitVec 8} {k : Block B} (idle : s.busy = false) (length : n.toNat = B) (payload : s.din = k.toList) :
      Succeeds P s (.keyld n) (s.loadKey k) ⟨okWord, none⟩
  | ivld {v : Block B} (idle : s.busy = false) (payload : s.din = v.toList) : Succeeds P s .ivld (s.loadIv v) ⟨okWord, none⟩
  | ivclr (idle : s.busy = false) : Succeeds P s .ivclr s.clearIv ⟨okWord, none⟩
  | start {f : BitVec 2} {m : Mode} {d : Dir} {len : Len} (known : modeOf f = some m) (accepted : Accepts s m len) :
      Succeeds P s (.start f d len) (s.openOperation m d len) ⟨okWord, none⟩
  | blkOpen {x y : Block B} (busy : s.busy = true) (payload : s.din = x.toList) (more : s.atLast = false)
      (output : y = outputBlock P s.mode s.dir s.key s.chain x) :
      Succeeds P s .blk (s.advance (nextChain s.mode s.dir s.chain x y)) ⟨okDataWord, some y⟩
  | blkLast {x y : Block B} (busy : s.busy = true) (payload : s.din = x.toList) (last : s.atLast = true)
      (output : y = outputBlock P s.mode s.dir s.key s.chain x) :
      Succeeds P s .blk s.closeOperation ⟨okLastWord, some y⟩
  | errclr : Succeeds P s .errclr s.clearErr ⟨okWord, none⟩

/-- `i` is answered in `s`: it fails and only takes an error, or it succeeds (60_exceptions.md R190, R195). -/
def Answers (P : Primitive B) (s : State B) (i : Instr) : Prop :=
  (∃ x, execOver P i s = raise x s) ∨ ∃ u r, Succeeds P s i u r ∧ execOver P i s = .next (u.respond r)

theorem answers_of_raised {t : State B} {x : Err} (h : execOver P i s = .next t) (ht : Raised x s t) : Answers P s i :=
  .inl ⟨x, by rw [h, raise_eq, ht]⟩

theorem answers_of_succeeds {t : State B} (h : execOver P i s = .next t) (hs : Succeeds P s i u r) (ht : t = u.respond r) :
    Answers P s i :=
  .inr ⟨u, r, hs, by rw [h, ht]⟩

/-- A command with its whole payload on DIN is not refused (20_memory.md R55; 60_exceptions.md R190). -/
theorem execOver_next (P : Primitive B) (hd : s.din.length = i.payloadLen B) : ∃ t, execOver P i s = .next t := by
  cases i with
  | keyld n =>
    simp only [execOver, execKeyld]
    split
    · exact ⟨_, rfl⟩
    split
    · exact ⟨_, rfl⟩
    rename_i hn
    obtain ⟨k, -, hk⟩ := blockOf_isSome (hd.trans (show n.toNat = B by simpa [Config.keyOK] using hn))
    rw [hk]; exact ⟨_, rfl⟩
  | ivld =>
    obtain ⟨v, -, hv⟩ := blockOf_isSome (B := B) hd
    simp only [execOver, execIvld, hv]
    split <;> exact ⟨_, rfl⟩
  | ivclr =>
    simp only [execOver, execIvclr]
    split <;> exact ⟨_, rfl⟩
  | start f d len =>
    simp only [execOver, execStart]
    split
    · exact ⟨_, rfl⟩
    split
    · exact ⟨_, rfl⟩
    split_ifs <;> exact ⟨_, rfl⟩
  | blk =>
    obtain ⟨x, -, hx⟩ := blockOf_isSome (B := B) hd
    simp only [execOver, blkOver, hx]
    split <;> exact ⟨_, rfl⟩
  | errclr => exact ⟨_, rfl⟩

/-- A command with its whole payload on DIN is answered. -/
theorem execOver_answers (P : Primitive B) (hd : s.din.length = i.payloadLen B) : Answers P s i := by
  obtain ⟨t, h⟩ := execOver_next P hd
  cases i with
  | keyld n =>
    obtain ⟨-, ht⟩ | ⟨-, -, ht⟩ | ⟨hb, hn, k, hk, ht⟩ := execKeyld_cases h
    · exact answers_of_raised h ht
    · exact answers_of_raised h ht
    · exact answers_of_succeeds h (.keyld hb hn hk) ht
  | ivld =>
    obtain ⟨-, ht⟩ | ⟨hb, v, hv, ht⟩ := execIvld_cases h
    · exact answers_of_raised h ht
    · exact answers_of_succeeds h (.ivld hb hv) ht
  | ivclr =>
    obtain ⟨-, ht⟩ | ⟨hb, ht⟩ := execIvclr_cases h
    · exact answers_of_raised h ht
    · exact answers_of_succeeds h (.ivclr hb) ht
  | start f d len =>
    obtain ⟨x, ht⟩ | ⟨m, hm, ha, ht⟩ := execStart_cases h
    · exact answers_of_raised h ht
    · exact answers_of_succeeds h (.start hm ha) ht
  | blk =>
    obtain ⟨-, ht⟩ | ⟨hb, x, hx, ht⟩ := blkOver_cases h
    · exact answers_of_raised h ht
    · cases hl : s.atLast with
      | false => exact answers_of_succeeds h (.blkOpen hb hx hl rfl) (ht.trans (processBlock_open hl))
      | true => exact answers_of_succeeds h (.blkLast hb hx hl rfl) (ht.trans (processBlock_last hl))
  | errclr => exact answers_of_succeeds h .errclr (execErrclr_cases h)

/-! ### What every success has in common -/

theorem Succeeds.moves_eq (h : Succeeds P s i u r) : u.moves = s.moves := by cases h <;> rfl

theorem Succeeds.rsp_eq (h : Succeeds P s i u r) : u.rsp = s.rsp := by cases h <;> rfl

/-- ERR is written by ERRCLR alone (10_state.md R29). -/
theorem Succeeds.err_eq (h : Succeeds P s i u r) : u.err = s.err ∨ (i = .errclr ∧ u.err = 0#8) := by
  cases h
  case errclr => exact .inr ⟨rfl, rfl⟩
  all_goals exact .inl rfl

@[simp] theorem code_ok (b : Option (Block B)) : Response.code ⟨okWord, b⟩ = 0#8 := by
  show okWord.extractLsb 7 0 = 0#8; decide

@[simp] theorem code_okData (b : Option (Block B)) : Response.code ⟨okDataWord, b⟩ = 0#8 := by
  show okDataWord.extractLsb 7 0 = 0#8; decide

@[simp] theorem code_okLast (b : Option (Block B)) : Response.code ⟨okLastWord, b⟩ = 0#8 := by
  show okLastWord.extractLsb 7 0 = 0#8; decide

/-- OK, OKDATA and OKLAST have ERRB = 0 and CODE = 0 (30_encoding.md R78). -/
theorem Succeeds.response_ok (h : Succeeds P s i u r) : r.errb = false ∧ r.code = 0#8 := by
  cases h <;> simp

/-! ### The invariants of 10_state.md R35, at every block size -/

theorem Err.mem_listed (x : Err) :
    x ∈ [Err.invalidKeyLength, .shortInput, .misalignedInput, .missingIV, .unknownMode, .badCommand, .badSequence] := by
  cases x <;> decide

/-- ERR may take any error's code (10_state.md R35 (vii)). -/
theorem Elements.Legal.with_err {e : Elements B} (h : e.Legal) (x : Err) : Elements.Legal { e with err := x.code } := by
  obtain ⟨hkey, hiv, hidle, hcount, hivv, hchain, -⟩ := h
  exact ⟨hkey, hiv, hidle, hcount, hivv, hchain, .inr ⟨x, x.mem_listed, rfl⟩⟩

/-- The invariants hold at reset (10_state.md R38). -/
theorem Elements.legal_reset : (Elements.reset : Elements B).Legal :=
  ⟨fun _ => rfl, fun _ => rfl, fun _ => ⟨rfl, rfl, rfl, rfl, rfl⟩, nofun, nofun, nofun, .inl rfl⟩

/-- NBLK of an accepted START is in range (41_operation_commands.md R127). -/
theorem blockCount_range {len : Len} (hB : 1 ≤ B) (h : B ≤ len.toNat) :
    1 ≤ (blockCount len B).toNat ∧ (blockCount len B).toNat ≤ Config.NBLKMAX B := by
  rw [blockCount_toNat]
  exact ⟨Nat.div_pos h hB, Nat.div_le_div_right (Nat.le_sub_one_of_lt len.isLt)⟩

/-- IDX + 1 does not wrap while it is below NBLK (41_operation_commands.md R127). -/
theorem idx_succ_lt {s : State B} (h : s.idx.toNat < s.nblk.toNat) (hl : s.atLast = false) :
    (s.idx + 1#24).toNat < s.nblk.toNat := by
  have hne : s.idx.toNat + 1 ≠ s.nblk.toNat := by simpa [State.atLast] using hl
  have hn := s.nblk.isLt
  rw [BitVec.toNat_add, BitVec.toNat_ofNat]
  omega

/-- A command that succeeds keeps the invariants. -/
theorem Succeeds.legal (hB : 1 ≤ B) (h : Succeeds P s i u r) (hs : s.Legal) : u.Legal := by
  obtain ⟨hkey, hiv, hidle, hcount, hivv, hchain, herr⟩ := hs
  cases h with
  | keyld idle _ _ => exact ⟨nofun, hiv, hidle, by simp [idle], by simp [idle], by simp [idle], herr⟩
  | ivld idle _ => exact ⟨hkey, nofun, hidle, by simp [idle], by simp [idle], by simp [idle], herr⟩
  | ivclr idle => exact ⟨hkey, fun _ => rfl, hidle, by simp [idle], by simp [idle], by simp [idle], herr⟩
  | @start _ m _ _ _ accepted =>
    obtain ⟨-, hk, hlen, -, hv⟩ := accepted
    obtain ⟨hone, hmax⟩ := blockCount_range hB hlen
    exact ⟨hkey, hiv, nofun, fun _ => ⟨hk, hone, hmax, hone⟩, fun _ => hv, fun _ (hm : m = .ecb) => by subst hm; rfl, herr⟩
  | blkOpen busy _ more _ =>
    obtain ⟨hk, hone, hmax, hlt⟩ := hcount busy
    refine ⟨hkey, hiv, by simp [busy], fun _ => ⟨hk, hone, hmax, idx_succ_lt hlt more⟩, hivv, fun _ hm => ?_, herr⟩
    have hm : s.mode = .ecb := hm
    simpa [hm, nextChain] using hchain busy hm
  | blkLast _ _ _ _ => exact ⟨hkey, hiv, fun _ => ⟨rfl, rfl, rfl, rfl, rfl⟩, nofun, nofun, nofun, herr⟩
  | errclr => exact ⟨hkey, hiv, hidle, hcount, hivv, hchain, .inl rfl⟩

/-! ### One step, at every block size -/

/-- A step whose next host move is a whole command fails with an error, or it is the success of the decoded instruction
(00_scope.md R10; 60_exceptions.md R190). -/
theorem stepOver_command (P : Primitive B) {w : Word} {p : List Byte} {rest : List HostMove} (hm : s.moves = .issue w p :: rest)
    (hp : p.length = plen w B) :
    (∃ x, stepOver P s = raise x (s.present rest p)) ∨
    ∃ i u r, decode w = .ok i ∧ Succeeds P (s.present rest p) i u r ∧ stepOver P s = .next (u.respond r) := by
  rw [stepOver, stepWith_command hm hp, runWord]
  cases hd : decode w with
  | error e => exact .inl ⟨.badCommand, rfl⟩
  | ok i =>
    obtain hx | ⟨u, r, hs, h⟩ := execOver_answers P (s := s.present rest p) (hp.trans (plen_of_decode hd B))
    · exact .inl hx
    · exact .inr ⟨i, u, r, rfl, hs, h⟩

/-- What a framed state's step finds: nothing to do, a reset, or a whole command (20_memory.md R55, R65; 70_reset_and_hazards.md R231). -/
theorem stepOver_framed (P : Primitive B) (hf : s.Framed) :
    stepOver P s = .next s ∨
    (∃ rest, rest ⊆ s.moves ∧ stepOver P s = .next (s.present rest []).hostReset) ∨
    (∃ w p rest, s.moves = .issue w p :: rest ∧ p.length = plen w B) := by
  rcases takeMove_cases (B := B) s.moves with ⟨e, -⟩ | ⟨rest, e, hm⟩ | ⟨w, p, rest, -, hm, hp⟩ | ⟨-, m, hm, hbad⟩
  · exact .inl (by simp [stepOver, stepWith, e])
  · refine .inr (.inl ⟨rest, ?_, by simp [stepOver, stepWith, e]⟩)
    obtain hm | ⟨w, p, hm, -⟩ := hm <;> simp [hm]
  · exact .inr (.inr ⟨w, p, rest, hm, hp⟩)
  · simp [hf m hm] at hbad

/-- A step from a legal, framed state answers a legal state, whose moves are among those it had. -/
theorem stepOver_legal (hB : 1 ≤ B) (P : Primitive B) (hs : s.Legal) (hf : s.Framed) :
    ∃ t, stepOver P s = .next t ∧ t.Legal ∧ t.moves ⊆ s.moves := by
  obtain h | ⟨rest, hsub, h⟩ | ⟨w, p, rest, hm, hp⟩ := stepOver_framed P hf
  · exact ⟨s, h, hs, List.Subset.refl _⟩
  · exact ⟨_, h, Elements.legal_reset, hsub⟩
  have hsub : rest ⊆ s.moves := by simp [hm]
  obtain ⟨x, h⟩ | ⟨i, u, r, -, hu, h⟩ := stepOver_command P hm hp
  · exact ⟨_, h, hs.with_err x, hsub⟩
  · exact ⟨_, h, (hu.legal hB hs : u.Legal), by simpa [hu.moves_eq] using hsub⟩

/-- Settles O60: a step from a legal, framed state is a wait, a reset or an answered command, and each keeps the invariants. -/
theorem everyBlockSizeStepsSafelyAndStaysLegal : Obligations.EveryBlockSizeStepsSafelyAndStaysLegal := by
  intro B hB
  refine ⟨Elements.legal_reset, fun P s hs hf => ?_⟩
  obtain ⟨t, h, ht, hsub⟩ := stepOver_legal hB P hs hf
  exact ⟨t, h, ht, fun m hm => hf m (hsub hm)⟩

/-! ### This hardware -/

/-- The commands of this hardware are the family's over the free primitive (00_scope.md R4, R7). -/
theorem exec_eq_execOver (i : Instr) (s : State) : exec i s = execOver Config.primitive i s := by
  cases i <;> rfl

theorem step_eq_stepOver (s : State) : step s = stepOver Config.primitive s :=
  congrArg (stepWith · s) (funext fun i => funext (exec_eq_execOver i))

/-- Settles O59: command by command, and then for the step that runs them. -/
theorem thisHardwareIsTheFamilyAtSixteen : Obligations.ThisHardwareIsTheFamilyAtSixteen :=
  ⟨rfl, fun s => ⟨fun i => exec_eq_execOver i s, step_eq_stepOver s⟩⟩

/-- Settles O21: the answer is an error's response, or that of the decoded instruction's success. -/
theorem everyCommandIsAnsweredOnce : Obligations.EveryCommandIsAnsweredOnce := by
  intro s w p rest hm hp
  rw [step_eq_stepOver]
  obtain ⟨x, h⟩ | ⟨i, u, r, hd, hu, h⟩ := stepOver_command Config.primitive hm hp
  · have hcode : x.code ≠ 0#8 := by cases x <;> decide
    refine ⟨_, ⟨errWord x.code, none⟩, h, rfl, rfl, rfl, fun _ => ⟨rfl, ?_, ?_⟩, fun he => ?_⟩
    · rwa [code_err]
    · rw [code_err]; rfl
    · rw [errb_err] at he; cases he
  · obtain ⟨hok, hcode⟩ := hu.response_ok
    refine ⟨_, r, h, by simp [hu.rsp_eq], by simp [hu.moves_eq], rfl, fun he => ?_, fun _ => ⟨hcode, ?_⟩⟩
    · rw [hok] at he; cases he
    · exact hu.err_eq.imp_right fun ⟨hi, he⟩ => ⟨word_of_decode_errclr (hi ▸ hd), he⟩

/-- Settles O17: the step takes the whole command off the ports and runs what its word decodes to. -/
theorem stepRunsTheDecodedCommand : Obligations.StepRunsTheDecodedCommand := by
  intro s w p rest i hm hp hd
  rw [step_command hm hp, execWord, runWord, hd]
  rfl

/-! ### The laws of XOR (00_scope.md R11), lane by lane -/

theorem xorBlock_comm (a b : Block B) : xorBlock a b = xorBlock b a := by
  ext j hj; simp [BitVec.xor_comm]

theorem xorBlock_assoc (a b c : Block B) : xorBlock (xorBlock a b) c = xorBlock a (xorBlock b c) := by
  ext j hj; simp [BitVec.xor_assoc]

theorem xorBlock_self (a : Block B) : xorBlock a a = Block.zeros := by
  ext j hj; simp [Block.zeros]

theorem xorBlock_zeros (a : Block B) : xorBlock a Block.zeros = a := by
  ext j hj; simp [Block.zeros]

/-- Settles O40: XOR's lane rule, and the four laws that follow from it in each lane. -/
theorem xorIsBytewise : Obligations.XorIsBytewise := fun _ =>
  ⟨getElem_xorBlock, xorBlock_comm, xorBlock_assoc, xorBlock_self, xorBlock_zeros⟩

end Sys2Proof.Machine

/-! The statements of 10_state.md: which elements a command writes, that none reads ERR, the counters of an operation, the status
words, and the elements at reset. -/

namespace Sys2Proof.Machine

variable {B : Nat} {P : Primitive B} {s t u : State B} {i : Instr} {r : Response B}

/-! ### What a command that answers a next state has done -/

/-- Everything a command that answers a next state can have done, whatever stands on DIN: it took an error and nothing else, or it
succeeded (60_exceptions.md R190, R195). -/
theorem execOver_cases (h : execOver P i s = .next t) :
    (∃ x, Raised x s t) ∨ ∃ u r, Succeeds P s i u r ∧ t = u.respond r := by
  cases i with
  | keyld n =>
    obtain ⟨-, ht⟩ | ⟨-, -, ht⟩ | ⟨hb, hn, k, hk, ht⟩ := execKeyld_cases h
    · exact .inl ⟨_, ht⟩
    · exact .inl ⟨_, ht⟩
    · exact .inr ⟨_, _, .keyld hb hn hk, ht⟩
  | ivld =>
    obtain ⟨-, ht⟩ | ⟨hb, v, hv, ht⟩ := execIvld_cases h
    · exact .inl ⟨_, ht⟩
    · exact .inr ⟨_, _, .ivld hb hv, ht⟩
  | ivclr =>
    obtain ⟨-, ht⟩ | ⟨hb, ht⟩ := execIvclr_cases h
    · exact .inl ⟨_, ht⟩
    · exact .inr ⟨_, _, .ivclr hb, ht⟩
  | start f d len =>
    obtain hx | ⟨m, hm, ha, ht⟩ := execStart_cases h
    · exact .inl hx
    · exact .inr ⟨_, _, .start hm ha, ht⟩
  | blk =>
    obtain ⟨-, ht⟩ | ⟨hb, x, hx, ht⟩ := blkOver_cases h
    · exact .inl ⟨_, ht⟩
    · cases hl : s.atLast with
      | false => exact .inr ⟨_, _, .blkOpen hb hx hl rfl, ht.trans (processBlock_open hl)⟩
      | true => exact .inr ⟨_, _, .blkLast hb hx hl rfl, ht.trans (processBlock_last hl)⟩
  | errclr => exact .inr ⟨_, _, .errclr, execErrclr_cases h⟩

/-- `execOver_cases` for the commands of this hardware. -/
theorem exec_cases {s t : State} (h : exec i s = .next t) :
    (∃ x, Raised x s t) ∨ ∃ u r, Succeeds Config.primitive s i u r ∧ t = u.respond r :=
  execOver_cases (exec_eq_execOver i s ▸ h)

/-! ### Which elements a success writes (the table of 10_state.md R20) -/

/-- KEY and KEYV are written by KEYLD alone (10_state.md R21, R22). -/
theorem Succeeds.key_eq (h : Succeeds P s i u r) (hi : ∀ n, i ≠ .keyld n) : u.key = s.key ∧ u.keyv = s.keyv := by
  cases h
  case keyld => exact absurd rfl (hi _)
  all_goals exact ⟨rfl, rfl⟩

/-- IV and IVV are written by IVLD and IVCLR alone (10_state.md R23). -/
theorem Succeeds.iv_eq (h : Succeeds P s i u r) (hld : i ≠ .ivld) (hclr : i ≠ .ivclr) : u.iv = s.iv ∧ u.ivv = s.ivv := by
  cases h
  case ivld => exact absurd rfl hld
  case ivclr => exact absurd rfl hclr
  all_goals exact ⟨rfl, rfl⟩

/-- The elements of the open operation are written by START and BLK alone (10_state.md R24, R26 to R28). -/
theorem Succeeds.operation_eq (h : Succeeds P s i u r) (hstart : ∀ m d l, i ≠ .start m d l) (hblk : i ≠ .blk) :
    u.chain = s.chain ∧ u.busy = s.busy ∧ u.mode = s.mode ∧ u.dir = s.dir ∧ u.nblk = s.nblk ∧ u.idx = s.idx := by
  cases h
  case start => exact absurd rfl (hstart _ _ _)
  case blkOpen => exact absurd rfl hblk
  case blkLast => exact absurd rfl hblk
  all_goals exact ⟨rfl, rfl, rfl, rfl, rfl, rfl⟩

/-- Settles O14: an error writes ERR alone and is answered with ERRB = 1; a success keeps what its command does not list. -/
theorem elementsAreWrittenOnlyByTheirCommands : Obligations.ElementsAreWrittenOnlyByTheirCommands := by
  intro i s t h
  obtain ⟨x, rfl⟩ | ⟨u, r, hu, rfl⟩ := exec_cases h
  · refine ⟨rfl, ⟨_, rfl, fun _ hok => ?_⟩, fun _ => ⟨rfl, rfl⟩, fun _ _ => ⟨rfl, rfl⟩, fun _ _ => ⟨rfl, rfl, rfl, rfl, rfl, rfl⟩⟩
    rw [errb_err] at hok; cases hok
  · exact ⟨hu.moves_eq, ⟨r, by simp [hu.rsp_eq], fun hi _ => hu.err_eq.resolve_right fun ⟨he, _⟩ => hi he⟩,
      hu.key_eq, hu.iv_eq, hu.operation_eq⟩

/-! ### ERR is read by no command (10_state.md R29; 60_exceptions.md R201) -/

/-- Where `a` answers a next state, `b` answers the same state up to what ERR holds. -/
def SameButErr (a b : Result B) : Prop := ∀ t, a = .next t → ∃ t', b = .next t' ∧ ({ t' with err := t.err } : State B) = t

theorem SameButErr.next (t : State B) (c : BitVec 8) : SameButErr (.next t) (.next { t with err := c }) := by
  rintro _ ⟨⟩; exact ⟨_, rfl, rfl⟩

theorem SameButErr.refl (a : Result B) : SameButErr a a := fun t h => ⟨t, h, rfl⟩

/-- A test that does not read ERR keeps agreement up to ERR. -/
theorem SameButErr.ite {p : Prop} [Decidable p] {a a' b b' : Result B} (ha : SameButErr a a') (hb : SameButErr b b') :
    SameButErr (if p then a else b) (if p then a' else b') := by
  split
  · exact ha
  · exact hb

/-- An in-sequence BLK neither reads nor writes ERR (41_operation_commands.md R129). -/
theorem processBlock_with_err (P : Primitive B) (x : Block B) (s : State B) (c : BitVec 8) :
    processBlock P x { s with err := c } = { processBlock P x s with err := c } := by
  cases hl : s.atLast with
  | true => rw [processBlock_last hl, processBlock_last (s := { s with err := c }) hl]; rfl
  | false => rw [processBlock_open hl, processBlock_open (s := { s with err := c }) hl]; rfl

/-- Any command, at every block size: each test reads other elements, an error overwrites ERR, and a success leaves it or, by
ERRCLR, clears it. -/
theorem execOver_sameButErr (P : Primitive B) (i : Instr) (s : State B) (c : BitVec 8) :
    SameButErr (execOver P i s) (execOver P i { s with err := c }) := by
  cases i with
  | keyld n =>
    refine .ite (.refl _) (.ite (.refl _) ?_)
    dsimp only
    cases blockOf s.din with
    | some k => exact .next _ c
    | none => exact .refl _
  | ivld =>
    refine .ite (.refl _) ?_
    dsimp only
    cases blockOf s.din with
    | some v => exact .next _ c
    | none => exact .refl _
  | ivclr => exact .ite (.refl _) (.next _ c)
  | start f d len =>
    refine .ite (.refl _) ?_
    cases modeOf f with
    | some m => exact .ite (.refl _) (.ite (.refl _) (.ite (.refl _) (.ite (.refl _) (.next _ c))))
    | none => exact .refl _
  | blk =>
    refine .ite (.refl _) ?_
    dsimp only
    cases blockOf s.din with
    | some x =>
      dsimp only
      rw [processBlock_with_err P x s c]
      exact .next _ c
    | none => exact .refl _
  | errclr => exact .refl _

/-- Settles O15: the commands of this hardware are the family's, none of which reads ERR. -/
theorem errIsReadByNoCommand : Obligations.ErrIsReadByNoCommand := by
  intro i s t c h
  rw [exec_eq_execOver] at h ⊢
  exact execOver_sameButErr Config.primitive i s c t h

/-! ### The counters of an operation (41_operation_commands.md R127) -/

/-- IDX + 1 is exact while IDX is below NBLK. -/
theorem idx_succ_toNat {e : Elements B} (h : e.idx.toNat < e.nblk.toNat) : (e.idx + 1#24).toNat = e.idx.toNat + 1 :=
  BitVec.toNat_add_of_lt (lt_of_le_of_lt h e.nblk.isLt)

/-- NBLK of a length that is a whole number of blocks is exact. -/
theorem blockCount_exact {len : Len} (h : len.toNat % B = 0) : (blockCount len B).toNat * B = len.toNat := by
  rw [blockCount_toNat]
  exact Nat.div_mul_cancel (Nat.dvd_of_mod_eq_zero h)

/-- Settles O34: NBLK is the quotient an accepted START has found exact, and a BLK that leaves the operation open had IDX + 1 below
NBLK. -/
theorem countersNeverOverflow : Obligations.CountersNeverOverflow := by
  refine ⟨fun s t mode dir len hidle h hbusy => ?_, fun s t hs h hbusy => ?_⟩
  · obtain ⟨x, rfl⟩ | ⟨m, -, ⟨-, -, hlen, hmod, -⟩, rfl⟩ := execStart_cases h
    · exact absurd (hidle.symm.trans hbusy) nofun
    · exact ⟨blockCount_exact hmod, blockCount_range (by decide) hlen⟩
  · obtain ⟨-, -, -, hcount, -⟩ := hs
    obtain ⟨hidle, rfl⟩ | ⟨hb, x, -, rfl⟩ := blkOver_cases h
    · exact absurd (hidle.symm.trans hbusy) nofun
    · obtain ⟨-, -, -, hlt⟩ := hcount hb
      cases hl : s.atLast with
      | true => rw [processBlock_last hl] at hbusy; cases hbusy
      | false =>
        rw [processBlock_open hl]
        exact ⟨idx_succ_toNat hlt, rfl, idx_succ_lt hlt hl⟩

/-! ### The status words (10_state.md R30) -/

/-- The bits of S0: 16 zeros, ERR, two zeros, and the six flags. -/
theorem getLsbD_status (e : Elements B) (i : Nat) :
    e.status.getLsbD i =
      if 16 ≤ i then false
      else if 8 ≤ i then e.err.getLsbD (i - 8)
      else if i = 0 then e.keyv
      else if i = 1 then e.ivv
      else if i = 2 then e.busy
      else if i = 3 then modeBit e.mode
      else if i = 4 then dirBit e.dir
      else if i = 5 then e.errf
      else false := by
  show (0#16 ++ e.err ++ 0#2 ++ BitVec.ofBool e.errf ++ BitVec.ofBool (dirBit e.dir) ++ BitVec.ofBool (modeBit e.mode)
    ++ BitVec.ofBool e.busy ++ BitVec.ofBool e.ivv ++ BitVec.ofBool e.keyv).getLsbD i = _
  simp only [BitVec.getLsbD_append]
  rcases Nat.lt_or_ge i 8 with hi | hi
  · interval_cases i <;> simp
  · obtain ⟨j, rfl⟩ := Nat.exists_eq_add_of_le' hi
    rcases Nat.lt_or_ge j 8 with hj | hj
    · simp [hj, Nat.not_le.2 hj]
    · simp [hj]

/-- A counter read in a status word. -/
theorem toNat_zeros_append (x : Len) : (0#8 ++ x).toNat = x.toNat := by
  rw [BitVec.toNat_append]
  simp

/-- Settles O10: each bit of S0 is read off `getLsbD_status`. -/
theorem statusWordsShowTheElements : Obligations.StatusWordsShowTheElements := by
  refine ⟨by decide, by decide, by decide, fun e => ⟨rfl, rfl, rfl, fun n hn => ?_, ?_⟩⟩
  · obtain ⟨k, rfl⟩ := Nat.exists_eq_add_of_le' hn
    rfl
  have hmode : modeBit e.mode = true ↔ e.mode = .cbc := by cases e.mode <;> decide
  have hdir : dirBit e.dir = true ↔ e.dir = .dec := by cases e.dir <;> decide
  have herr : e.errf = true ↔ e.err ≠ 0#8 := bne_iff_ne
  simp only [getLsbD_status]
  refine ⟨rfl, rfl, rfl, hmode, hdir, herr, rfl, rfl, fun i hi => ?_, fun i hi => if_pos hi, toNat_zeros_append e.nblk,
    toNat_zeros_append e.idx⟩
  have hi16 : ¬16 ≤ 8 + i := by omega
  simp [hi16]

/-- Settles O11: the status words are written from the other elements alone. -/
theorem statusHidesTheBlockRegisters : Obligations.StatusHidesTheBlockRegisters := by
  rintro e k v c (_ | _ | _ | n) <;> rfl

/-! ### The elements at reset (10_state.md R38) -/

/-- Every byte of `zeros(B)` is zero. -/
@[simp] theorem getElem_zeros (j : Nat) (hj : j < B) : (Block.zeros : Block B)[j] = 0#8 := Vector.getElem_replicate hj

/-- Settles O8: the block registers are `zeros(B)`, and the other elements are zero by definition. -/
theorem resetLeavesEveryElementZero : Obligations.ResetLeavesEveryElementZero :=
  ⟨fun j hj => ⟨getElem_zeros j hj, getElem_zeros j hj, getElem_zeros j hj⟩, rfl, rfl, rfl, rfl, rfl, rfl, rfl, rfl⟩

/-- Settles O12: the member at B = 16 of `Elements.legal_reset`. -/
theorem legalAtReset : Obligations.LegalAtReset := Elements.legal_reset

end Sys2Proof.Machine

/-! The statements of 20_memory.md: the host moves a step takes off the ports, and the lanes of a wide port. -/

namespace Sys2Proof.Machine

variable {B : Nat} {s t : State B}

/-! ### Framing of the host moves (20_memory.md R55) -/

/-- Framing is a property of each move, so moves dropped keep it. -/
theorem State.Framed.of_moves_subset (hf : s.Framed) (h : t.moves ⊆ s.moves) : t.Framed := fun m hm => hf m (h hm)

/-- A framed state is not refused, whatever its elements hold, and a step only takes moves off the ports (20_memory.md R55;
60_exceptions.md R190). -/
theorem stepOver_next_of_framed (P : Primitive B) (hf : s.Framed) : ∃ t, stepOver P s = .next t ∧ t.moves ⊆ s.moves := by
  obtain h | ⟨rest, hsub, h⟩ | ⟨w, p, rest, hm, hp⟩ := stepOver_framed P hf
  · exact ⟨s, h, List.Subset.refl _⟩
  · exact ⟨_, h, hsub⟩
  have hsub : rest ⊆ s.moves := by simp [hm]
  obtain ⟨x, h⟩ | ⟨i, u, r, -, hu, h⟩ := stepOver_command P hm hp
  · exact ⟨_, h, hsub⟩
  · exact ⟨_, h, by simpa [hu.moves_eq] using hsub⟩

/-- Settles O22: the step answers, and the moves that remain are among the framed ones it found. -/
theorem framedStatesStepSafely : Obligations.FramedStatesStepSafely := by
  intro s hf
  obtain ⟨t, h, hsub⟩ := stepOver_next_of_framed Config.primitive hf
  exact ⟨t, step_eq_stepOver s ▸ h, hf.of_moves_subset hsub⟩

/-! ### The lanes of a wide port (20_memory.md R53) -/

theorem beat_cons (b : Byte) (l : List Byte) : beat (b :: l) = b.toNat + 2 ^ 8 * beat l := rfl

/-- A beat of n bytes fits in 8n bits. -/
theorem beat_lt (l : List Byte) : beat l < 2 ^ (8 * l.length) := by
  induction l with
  | nil => decide
  | cons b l ih =>
    have hb := b.isLt
    rw [beat_cons, List.length_cons, Nat.mul_succ, Nat.pow_add]
    omega

/-- Byte 0 is the low lane. -/
theorem beat_cons_mod (b : Byte) (l : List Byte) : beat (b :: l) % 2 ^ 8 = b.toNat := by
  rw [beat_cons, Nat.add_mul_mod_self_left, Nat.mod_eq_of_lt b.isLt]

/-- Shifting the low lane out leaves the beat of the other bytes. -/
theorem beat_cons_div (b : Byte) (l : List Byte) : beat (b :: l) / 2 ^ 8 = beat l := by
  rw [beat_cons, Nat.add_mul_div_left _ _ (by decide), Nat.div_eq_of_lt b.isLt, Nat.zero_add]

/-- Lane j of a beat holds byte j. -/
theorem beat_lane (l : List Byte) (j : Nat) (h : j < l.length) : beat l / 2 ^ (8 * j) % 2 ^ 8 = l[j].toNat := by
  induction l generalizing j with
  | nil => cases h
  | cons b l ih =>
    cases j with
    | zero => simpa using beat_cons_mod b l
    | succ j =>
      rw [Nat.mul_succ, Nat.add_comm, Nat.pow_add, ← Nat.div_div_eq_div_mul, beat_cons_div]
      exact ih j (Nat.lt_of_succ_lt_succ h)

/-- Settles O42: the lanes tile the beat, so it fits, and each lane is read off by shifting the lower ones out. -/
theorem beatLanes : Obligations.BeatLanes := fun l => ⟨beat_lt l, beat_lane l⟩

end Sys2Proof.Machine

/-! The statements of 30_encoding.md: rows of the opcode map and command words stand for each other, which words are reserved, how
long a payload is, which answers occur, and what the assembler writes. -/

namespace Sys2Proof

variable {w : Word} {i : Instr}

/-! ### A word is the command of a row exactly when it is that command's encoding (30_encoding.md R71, R72) -/

/-- An instruction's word hits its row. -/
theorem rowOf_hits_encode (i : Instr) : (Laws.rowOf i).hits (encode i) = true := by
  cases i with
  | keyld n => exact Laws.EncodeHitsItsRow.keyld n
  | ivld => exact Laws.EncodeHitsItsRow.ivld
  | ivclr => exact Laws.EncodeHitsItsRow.ivclr
  | start mode dir len => exact Laws.EncodeHitsItsRow.start mode dir len
  | blk => exact Laws.EncodeHitsItsRow.blk
  | errclr => exact Laws.EncodeHitsItsRow.errclr

/-- The row and the bits its mask leaves free determine the word. -/
theorem eq_of_hits {r : OpRow} {v w : Word} (hv : r.hits v = true) (hw : r.hits w = true)
    (hfree : ∀ j < 32, r.mask.getLsbD j = false → v.getLsbD j = w.getLsbD j) : v = w := by
  refine BitVec.eq_of_getLsbD_eq fun j hj => ?_
  cases hm : r.mask.getLsbD j with
  | false => exact hfree j hj hm
  | true =>
    have hv' := hits_iff_bits.1 hv j hj
    have hw' := hits_iff_bits.1 hw j hj
    rw [hm, Bool.and_true] at hv' hw'
    rw [hv', hw']

/-- A row whose mask is full is hit by its pattern alone. -/
theorem hits_iff_eq_pattern {r : OpRow} (hm : r.mask = BitVec.allOnes 32) : r.hits w = true ↔ w = r.pattern := by
  rw [OpRow.hits, hm, BitVec.and_allOnes, beq_iff_eq]

theorem hits_iff_eq_encode_of_full (hm : (Laws.rowOf i).mask = BitVec.allOnes 32) :
    (Laws.rowOf i).hits w = true ↔ w = encode i := by
  rw [hits_iff_eq_pattern hm, (hits_iff_eq_pattern hm).1 (rowOf_hits_encode i)]

theorem rowKeyld_hits_iff : rowKeyld.hits w = true ↔ w = encode (.keyld (nField w)) := by
  refine ⟨fun h => eq_of_hits h (rowOf_hits_encode (.keyld (nField w))) fun j hj hm => ?_, fun h => ?_⟩
  · have hlow : ∀ j < 32, rowKeyld.mask.getLsbD j = false → j < 8 := by decide
    simp [encode, getLsbD_formatK, nField, hlow j hj hm]
  · rw [h]; exact rowOf_hits_encode (.keyld (nField w))

/-- The `dir` bit of a word as it stands in format S (30_encoding.md R76). -/
theorem bit_dirField (w : Word) : (dirField w).bit = BitVec.ofBool (w.getLsbD 25) := by
  rw [dirField]
  cases w.getLsbD 25 <;> rfl

theorem rowStart_hits_iff : rowStart.hits w = true ↔ w = encode (.start (modeField w) (dirField w) (lenField w)) := by
  refine ⟨fun h => eq_of_hits h (rowOf_hits_encode (.start (modeField w) (dirField w) (lenField w))) fun j hj hm => ?_, fun h => ?_⟩
  · have hfree : ∀ j < 32, rowStart.mask.getLsbD j = false → j < 24 ∨ j = 25 ∨ j = 26 ∨ j = 27 := by decide
    rw [encode, getLsbD_formatS, bit_dirField]
    obtain hlow | rfl | rfl | rfl := hfree j hj hm
    · simp [lenField, hlow]
    · simp
    · simp [modeField]
    · simp [modeField]
  · rw [h]; exact rowOf_hits_encode (.start (modeField w) (dirField w) (lenField w))

/-! ### Decoding and encoding are inverse (30_encoding.md R77) -/

/-- Settles O2: the word hits its own row and no earlier one, and its fields are the operands. -/
theorem decodeOfEncodeIsTheInstruction : Obligations.DecodeOfEncodeIsTheInstruction := by
  intro i
  cases i with
  | keyld n => exact Machine.decode_keyldWord n
  | ivld => exact Machine.decode_ivldWord
  | ivclr => exact Machine.decode_ivclrWord
  | start mode dir len => exact Machine.decode_startWord mode dir len
  | blk => exact Machine.decode_blkWord
  | errclr => decide

/-- Settles O3: whichever row the word hit, it is the encoding of that row's command. -/
theorem encodeOfDecodedIsTheWord : Obligations.EncodeOfDecodedIsTheWord := by
  intro w i h
  obtain ⟨hr, rfl⟩ | ⟨hr, rfl⟩ | ⟨hr, rfl⟩ | ⟨hr, rfl⟩ | ⟨hr, rfl⟩ | ⟨hr, rfl⟩ := decode_cases h
  · exact (rowKeyld_hits_iff.1 hr).symm
  · exact ((hits_iff_eq_encode_of_full (i := .ivld) rfl).1 hr).symm
  · exact ((hits_iff_eq_encode_of_full (i := .ivclr) rfl).1 hr).symm
  · exact (rowStart_hits_iff.1 hr).symm
  · exact ((hits_iff_eq_encode_of_full (i := .blk) rfl).1 hr).symm
  · exact ((hits_iff_eq_encode_of_full (i := .errclr) rfl).1 hr).symm

/-! ### The words that hit no row (30_encoding.md R72, R80) -/

/-- The decoder rejects exactly the words that hit no row. -/
theorem decode_error_iff : (∃ e, decode w = .error e) ↔ ∀ r ∈ opRows, r.hits w = false := by
  constructor
  · rintro ⟨e, h⟩
    unfold decode at h
    split_ifs at h with h1 h2 h3 h4 h5 h6
    simp only [opRows, List.forall_mem_cons, ← Bool.not_eq_true]
    exact ⟨h1, h2, h3, h4, h5, h6, nofun⟩
  · intro h
    simp only [opRows, List.forall_mem_cons] at h
    obtain ⟨h1, h2, h3, h4, h5, h6, -⟩ := h
    exact ⟨whyReserved w, by simp [decode, h1, h2, h3, h4, h5, h6]⟩

/-- Settles O4: a word that hits two rows would have two opcodes. -/
theorem opcodeRowsAreDisjoint : Obligations.OpcodeRowsAreDisjoint := by
  intro w
  have hop : opRows.Pairwise (fun a b => opcodeField a.pattern ≠ opcodeField b.pattern) := by decide
  refine ⟨hop.imp_of_mem fun ha hb hne h => hne ?_, decode_error_iff⟩
  rw [← opcode_of_hits ha h.1, opcode_of_hits hb h.2]

/-! ### Words and fields as numbers (30_encoding.md R73, R82) -/

/-- Two fields side by side, as a sum. -/
theorem toNat_append_eq_add {m n : Nat} (x : BitVec m) (y : BitVec n) : (x ++ y).toNat = x.toNat * 2 ^ n + y.toNat := by
  rw [BitVec.toNat_append, ← Nat.shiftLeft_add_eq_or_of_lt y.isLt, Nat.shiftLeft_eq]

theorem toNat_formatZ (op : BitVec 4) : (formatZ op).toNat = op.toNat * 2 ^ 28 := by
  have h : (op ++ 0#28).toNat = op.toNat * 2 ^ 28 := by
    rw [toNat_append_eq_add, BitVec.toNat_ofNat, Nat.zero_mod, Nat.add_zero]
  exact h

theorem toNat_formatK (op : BitVec 4) (n : BitVec 8) : (formatK op n).toNat = op.toNat * 2 ^ 28 + n.toNat := by
  have h : (op ++ 0#20 ++ n).toNat = op.toNat * 2 ^ 28 + n.toNat := by
    simp only [toNat_append_eq_add, BitVec.toNat_ofNat]; omega
  exact h

theorem toNat_formatS (op : BitVec 4) (mode : BitVec 2) (dir : BitVec 1) (len : Len) :
    (formatS op mode dir len).toNat = op.toNat * 2 ^ 28 + mode.toNat * 2 ^ 26 + dir.toNat * 2 ^ 25 + len.toNat := by
  have h : (op ++ mode ++ dir ++ 0#1 ++ len).toNat =
      op.toNat * 2 ^ 28 + mode.toNat * 2 ^ 26 + dir.toNat * 2 ^ 25 + len.toNat := by
    simp only [toNat_append_eq_add, BitVec.toNat_ofNat]; omega
  exact h

/-- Settles O7: each format is the sum of its fields, shifted to their places. -/
theorem commandWordsAreSums : Obligations.CommandWordsAreSums := by
  refine ⟨fun n => ?_, ?_, ?_, fun mode len => ?_, fun mode len => ?_, ?_, ?_⟩
  · simp [encode, toNat_formatK]
  · simp [encode, toNat_formatZ]
  · simp [encode, toNat_formatZ]
  · simp [encode, toNat_formatS, Dir.bit]
  · simp [encode, toNat_formatS, Dir.bit]
  · simp [encode, toNat_formatZ]
  · simp [encode, toNat_formatZ]

theorem toNat_opcodeField (w : Word) : (opcodeField w).toNat = w.toNat / 2 ^ 28 := by
  have hw := w.isLt
  rw [opcodeField, BitVec.extractLsb_toNat, Nat.shiftRight_eq_div_pow]
  omega

theorem toNat_nField (w : Word) : (nField w).toNat = w.toNat % 2 ^ 8 := by
  rw [nField, BitVec.extractLsb_toNat, Nat.shiftRight_zero]

theorem toNat_modeField (w : Word) : (modeField w).toNat = w.toNat / 2 ^ 26 % 2 ^ 2 := by
  rw [modeField, BitVec.extractLsb_toNat, Nat.shiftRight_eq_div_pow]

theorem toNat_bit_dirField (w : Word) : (dirField w).bit.toNat = w.toNat / 2 ^ 25 % 2 := by
  rw [bit_dirField, BitVec.toNat_ofBool, BitVec.getLsbD, Nat.toNat_testBit]

theorem toNat_lenField (w : Word) : (lenField w).toNat = w.toNat % 2 ^ 24 := by
  rw [lenField, BitVec.extractLsb_toNat, Nat.shiftRight_zero]

/-- KEYLD's row as numbers: opcode 1 and zeros above `n`. -/
theorem rowKeyld_hits_iff_toNat : rowKeyld.hits w = true ↔ w.toNat / 2 ^ 28 = 1 ∧ w.toNat % 2 ^ 28 / 2 ^ 8 = 0 := by
  rw [rowKeyld_hits_iff, ← BitVec.toNat_inj, encode, toNat_formatK, toNat_nField, BitVec.toNat_ofNat]
  omega

/-- START's row as numbers: opcode 4 and bit 24 zero. -/
theorem rowStart_hits_iff_toNat : rowStart.hits w = true ↔ w.toNat / 2 ^ 28 = 4 ∧ w.toNat / 2 ^ 24 % 2 = 0 := by
  rw [rowStart_hits_iff, ← BitVec.toNat_inj, encode, toNat_formatS, toNat_modeField, toNat_bit_dirField, toNat_lenField,
    BitVec.toNat_ofNat]
  omega

/-- A row with a full mask as numbers. -/
theorem hits_iff_toNat_of_full {r : OpRow} (hm : r.mask = BitVec.allOnes 32) : r.hits w = true ↔ w.toNat = r.pattern.toNat := by
  rw [hits_iff_eq_pattern hm, BitVec.toNat_inj]

/-- Settles O5: the words that hit no row, with each row read as numbers. -/
theorem reservedWordsAreTheListedOnes : Obligations.ReservedWordsAreTheListedOnes := by
  intro w
  have hivld : rowIvld.hits w = true ↔ w.toNat = 2 * 2 ^ 28 := hits_iff_toNat_of_full rfl
  have hivclr : rowIvclr.hits w = true ↔ w.toNat = 3 * 2 ^ 28 := hits_iff_toNat_of_full rfl
  have hblk : rowBlk.hits w = true ↔ w.toNat = 5 * 2 ^ 28 := hits_iff_toNat_of_full rfl
  have herrclr : rowErrclr.hits w = true ↔ w.toNat = 6 * 2 ^ 28 := hits_iff_toNat_of_full rfl
  rw [decode_error_iff]
  simp only [opRows, List.forall_mem_cons, List.not_mem_nil, false_imp_iff, implies_true, and_true, ← Bool.not_eq_true,
    rowKeyld_hits_iff_toNat, hivld, hivclr, rowStart_hits_iff_toNat, hblk, herrclr]
  omega

/-! ### The payload length of a word (30_encoding.md R74) -/

theorem opcodeField_eq_iff {op : BitVec 4} : opcodeField w = op ↔ w.toNat / 2 ^ 28 = op.toNat := by
  rw [← toNat_opcodeField, BitVec.toNat_inj]

/-- Settles O6: the opcode and `n` read as numbers; for a command, `plen_of_decode` at B = 16. -/
theorem payloadLengthOfAWord : Obligations.PayloadLengthOfAWord := by
  refine fun w => ⟨?_, fun i h => plen_of_decode h Config.B⟩
  simp only [plen, opcodeField_eq_iff, toNat_nField, BitVec.toNat_ofNat]

/-! ### Words written out by hand (30_encoding.md section 6) -/

/-- Settles O1: each listed word is run through the decoder. -/
theorem handWrittenWordsDecode : Obligations.HandWrittenWordsDecode := by
  unfold Obligations.HandWrittenWordsDecode
  decide

end Sys2Proof

namespace Sys2Proof.Machine

variable {B : Nat} {P : Primitive B} {s t u : State B} {i : Instr} {r : Response B}

/-! ### The answers that occur (30_encoding.md R78) -/

/-- A legal answer carries a block exactly when DATA = 1. -/
theorem Response.Legal.data_iff (h : r.Legal) : r.data = true ↔ r.block ≠ none := by
  have hok : okWord.getLsbD 30 = false := by decide
  have hdata : okDataWord.getLsbD 30 = true := by decide
  have hlast : okLastWord.getLsbD 30 = true := by decide
  have herr : ∀ c ∈ [1#8, 2#8, 3#8, 4#8, 7#8, 8#8, 9#8], (errWord c).getLsbD 30 = false := by decide
  rw [Response.data]
  obtain ⟨hw, hb⟩ | ⟨hw, hb⟩ | ⟨hw, hb⟩ | ⟨c, hc, hw, hb⟩ := h
  · rw [hw, hok]; exact iff_of_false nofun (· hb)
  · rw [hw, hdata]; exact iff_of_true rfl hb
  · rw [hw, hlast]; exact iff_of_true rfl hb
  · rw [hw, herr c hc]; exact iff_of_false nofun (· hb)

/-- An error's answer is one of the seven ERR(c). -/
theorem legal_errWord (x : Err) : (⟨errWord x.code, none⟩ : Response B).Legal := by
  have hc : x.code ∈ [1#8, 2#8, 3#8, 4#8, 7#8, 8#8, 9#8] := by cases x <;> decide
  exact .inr (.inr (.inr ⟨x.code, hc, rfl, rfl⟩))

/-- A success is answered OK without a block, or OKDATA or OKLAST with one. -/
theorem Succeeds.response_legal (h : Succeeds P s i u r) : r.Legal := by
  cases h
  case blkOpen => exact .inr (.inl ⟨rfl, nofun⟩)
  case blkLast => exact .inr (.inr (.inl ⟨rfl, nofun⟩))
  all_goals exact .inl ⟨rfl, rfl⟩

/-- One more legal answer keeps all answers legal. -/
theorem State.AnswersLegal.append (hs : s.AnswersLegal) (hr : r.Legal) (ht : t.rsp = s.rsp ++ [r]) : t.AnswersLegal := by
  intro q hq
  rw [ht, List.mem_append, List.mem_singleton] at hq
  obtain hq | rfl := hq
  · exact hs q hq
  · exact hr

/-- A step over blocks of any size and any primitive keeps the answers legal: it gives none, an error's, or a success's. -/
theorem stepOver_answersLegal (hs : s.AnswersLegal) (h : stepOver P s = .next t) : t.AnswersLegal := by
  obtain rfl | ⟨rest, rfl⟩ | ⟨w, p, rest, e, -, -, -, rfl⟩ | ⟨w, p, rest, i, -, -, -, hx⟩ := stepWith_cases h
  · exact hs
  · exact hs
  · exact hs.append (legal_errWord .badCommand) rfl
  · obtain ⟨x, rfl⟩ | ⟨u, r, hu, rfl⟩ := execOver_cases hx
    · exact hs.append (legal_errWord x) rfl
    · exact hs.append hu.response_legal (by rw [State.respond_rsp, hu.rsp_eq, State.present_rsp])

/-- Settles O24: `stepOver_answersLegal` at B = 16. -/
theorem answersStayLegal : Obligations.AnswersStayLegal :=
  ⟨fun _ => Response.Legal.data_iff, fun s _ hs h => stepOver_answersLegal hs (step_eq_stepOver s ▸ h)⟩

/-! ### The moves the assembler writes (30_encoding.md R74, R82, R83) -/

/-- A command's move is framed exactly when the command is well formed (20_memory.md R55). -/
theorem framed_move (c : Command) (B : Nat) : framed c.move B = c.wellFormed B := by
  rw [Command.move, framed, plen_of_decode (decodeOfEncodeIsTheInstruction c.instr), Command.wellFormed]

theorem framed_keyldMove {k : List Byte} (hk : k.length < 256) : framed (keyldMove k) B = true := by
  simp [keyldMove, framed_move, Command.wellFormed, Instr.payloadLen, Nat.mod_eq_of_lt hk]

theorem framed_ivMove (v : Option (Block B)) : framed (ivMove v) B = true := by
  cases v <;> simp [ivMove, framed_move, Command.wellFormed, Instr.payloadLen]

theorem framed_startMove (m : BitVec 2) (d : Dir) (len : Nat) : framed (startMove m d len) B = true :=
  framed_move ⟨.start m d (BitVec.ofNat 24 len), []⟩ B

theorem framed_blkMove {x : List Byte} (hx : x.length = B) : framed (blkMove x) B = true := by
  rw [blkMove, framed_move, Command.wellFormed, Instr.payloadLen, beq_iff_eq, hx]

/-- Each of the first `length / B` blocks of a buffer is whole (00_scope.md R12). -/
theorem length_blkBytes {buf : List Byte} {j : Nat} (hj : j < buf.length / B) : (blkBytes buf j B).length = B := by
  have hend : (j + 1) * B ≤ buf.length := (Nat.mul_le_mul_right B hj).trans (Nat.div_mul_le_self _ _)
  rw [Nat.succ_mul] at hend
  rw [blkBytes, List.length_take, List.length_drop]
  omega

theorem framed_of_mem_blkMoves {buf : List Byte} {m : HostMove} (hm : m ∈ blkMoves buf B) : framed m B = true := by
  obtain ⟨j, hj, rfl⟩ := List.mem_map.1 hm
  exact framed_blkMove (length_blkBytes (List.mem_range.1 hj))

/-- The expansion of a pseudo-instruction is framed (30_encoding.md R83). -/
theorem framed_of_mem_runMoves {f : BitVec 2} {d : Dir} {k buf : List Byte} {v : Option (Block B)} {m : HostMove}
    (hk : k.length < 256) (hm : m ∈ runMoves f d k v buf) : framed m B = true := by
  simp only [runMoves, operationMoves, List.mem_cons] at hm
  obtain rfl | rfl | rfl | hm := hm
  · exact framed_keyldMove hk
  · exact framed_ivMove v
  · exact framed_startMove f d buf.length
  · exact framed_of_mem_blkMoves hm

theorem framed_of_assembleRun {f : BitVec 2} {d : Dir} {k buf : List Byte} {v : Option (List Byte)} {ms : List HostMove}
    (h : assembleRun f d k v buf B = some ms) : ∀ m ∈ ms, framed m B = true := by
  unfold assembleRun at h
  split at h
  · obtain ⟨⟨hk, -⟩, hms⟩ := Option.ite_none_right_eq_some.1 h
    obtain rfl := Option.some.inj hms
    exact fun m => framed_of_mem_runMoves hk
  · cases h

/-- A line accepted under a condition that frames its one move is framed. -/
theorem framed_of_guarded {p : Prop} [Decidable p] {m : HostMove} {ms : List HostMove}
    (h : (if p then some [m] else none) = some ms) (hp : p → framed m B = true) : ∀ m ∈ ms, framed m B = true := by
  obtain ⟨hc, hms⟩ := Option.ite_none_right_eq_some.1 h
  obtain rfl := Option.some.inj hms
  exact List.forall_mem_singleton.2 (hp hc)

/-- What the assembler accepts is framed, at every block size. -/
theorem framed_of_assemble {line : AsmLine} {ms : List HostMove} (h : assemble line B = some ms) : ∀ m ∈ ms, framed m B = true := by
  cases line with
  | keyld key => exact framed_of_guarded h framed_keyldMove
  | ivld iv => exact framed_of_guarded h fun hl => (framed_move ⟨.ivld, iv⟩ B).trans (beq_iff_eq.2 hl)
  | ivclr =>
    obtain rfl := Option.some.inj h
    exact List.forall_mem_singleton.2 (framed_move ⟨.ivclr, []⟩ B)
  | start mode dir len => exact framed_of_guarded h fun _ => framed_startMove mode dir len
  | blk x => exact framed_of_guarded h framed_blkMove
  | errclr =>
    obtain rfl := Option.some.inj h
    exact List.forall_mem_singleton.2 (framed_move ⟨.errclr, []⟩ B)
  | word w payload => exact framed_of_guarded h fun hw => beq_iff_eq.2 hw.2
  | encrypt mode key iv buf => exact framed_of_assembleRun h
  | decrypt mode key iv buf => exact framed_of_assembleRun h

/-- Settles O58: `framed_of_assemble` at B = 16. -/
theorem assembledLinesAreFramed : Obligations.AssembledLinesAreFramed := fun _ _ => framed_of_assemble

/-- Settles O57: each listed line is run through the assembler. -/
theorem assemblerExamples : Obligations.AssemblerExamples := by
  unfold Obligations.AssemblerExamples
  decide

end Sys2Proof.Machine

/-! The statements of 40_setup_commands.md: what each setup command does, that loading a key and loading an IV commute, and the
outcome of a run, which those commands begin. -/

namespace Sys2Proof.Machine

variable {B : Nat} {s : State B}

/-! ### The setup commands, case by case (40_setup_commands.md R100 to R102) -/

theorem execKeyld_busy (n : BitVec 8) (hb : s.busy = true) : execKeyld n s = raise .badSequence s := by
  rw [execKeyld, if_pos hb]

theorem execKeyld_badLength {n : BitVec 8} (hb : s.busy = false) (hn : n.toNat ≠ B) :
    execKeyld n s = raise .invalidKeyLength s := by
  simp [execKeyld, hb, Config.keyOK, hn]

theorem execKeyld_accepts {n : BitVec 8} {k : Block B} (hb : s.busy = false) (hn : n.toNat = B) (hk : s.din = k.toList) :
    execKeyld n s = .next ((s.loadKey k).respond ⟨okWord, none⟩) := by
  simp [execKeyld, hb, Config.keyOK, hn, hk, respondOk_eq]

theorem execIvld_busy (hb : s.busy = true) : execIvld s = raise .badSequence s := by
  rw [execIvld, if_pos hb]

theorem execIvld_accepts {v : Block B} (hb : s.busy = false) (hv : s.din = v.toList) :
    execIvld s = .next ((s.loadIv v).respond ⟨okWord, none⟩) := by
  simp [execIvld, hb, hv, respondOk_eq]

theorem execIvclr_busy (hb : s.busy = true) : execIvclr s = raise .badSequence s := by
  rw [execIvclr, if_pos hb]

theorem execIvclr_accepts (hb : s.busy = false) : execIvclr s = .next (s.clearIv.respond ⟨okWord, none⟩) := by
  simp [execIvclr, hb, respondOk_eq]

/-- Settles O27: the three cases of KEYLD at B = 16. -/
theorem keyldLoadsTheKey : Obligations.KeyldLoadsTheKey := by
  obtain ⟨hword, -⟩ := commandWordsAreSums
  refine ⟨hword, fun s k hb hk => execKeyld_accepts hb rfl hk, fun s n hb => execKeyld_busy n hb, fun s n hb hn => ?_⟩
  exact execKeyld_badLength hb fun h => hn (BitVec.eq_of_toNat_eq h)

/-- Settles O28: the two cases of IVLD at B = 16. -/
theorem ivldLoadsTheIv : Obligations.IvldLoadsTheIv := by
  obtain ⟨-, hword, -⟩ := commandWordsAreSums
  exact ⟨hword, fun s v hb hv => execIvld_accepts hb hv, fun s hb => execIvld_busy hb⟩

/-- Settles O29: the two cases of IVCLR at B = 16. -/
theorem ivclrClearsTheIv : Obligations.IvclrClearsTheIv := by
  obtain ⟨-, -, hword, -⟩ := commandWordsAreSums
  exact ⟨hword, fun s hb => execIvclr_accepts hb, fun s hb => execIvclr_busy hb⟩

/-- Settles O30: ERRCLR tests nothing, and its answer is the success of `clearErr`. -/
theorem errclrClearsErrInEveryState : Obligations.ErrclrClearsErrInEveryState := by
  obtain ⟨-, -, -, -, -, -, hword⟩ := commandWordsAreSums
  exact ⟨hword, fun s => respondOk_eq s.clearErr⟩

/-! ### Loading a key and loading an IV commute (40_setup_commands.md R105) -/

/-- The state an accepted KEYLD leaves when it is driven alone. -/
def State.afterKeyld (s : State) (k : Block) : State := ((s.present [] k.toList).loadKey k).respond ⟨okWord, none⟩

/-- The state an accepted IVLD leaves when it is driven alone. -/
def State.afterIvld (s : State) (v : Block) : State := ((s.present [] v.toList).loadIv v).respond ⟨okWord, none⟩

/-- Driving a KEYLD of B bytes while idle loads the key and gives no output. -/
theorem drive_keyldMove (s : State) (k : Block) (ms : List HostMove) (out : List Byte) (hb : s.busy = false) :
    drive s out (keyldMove k.toList :: ms) = drive (s.afterKeyld k) out ms := by
  have hn : (BitVec.ofNat 8 k.toList.length).toNat = Config.B := by simp [Config.B]
  have hstep := (step_keyld s k.toList (by simp [Config.B])).trans (execKeyld_accepts hb hn rfl)
  rw [drive_cons hstep rfl (errb_ok none)]
  exact congrArg (drive _ · ms) (List.append_nil out)

/-- Driving an IVLD while idle loads the IV and gives no output. -/
theorem drive_ivldMove (s : State) (v : Block) (ms : List HostMove) (out : List Byte) (hb : s.busy = false) :
    drive s out (ivMove (some v) :: ms) = drive (s.afterIvld v) out ms := by
  have hstep : step { s with moves := [ivMove (some v)] } = execIvld (s.present [] v.toList) :=
    step_alone s ⟨.ivld, v.toList⟩ .ivld decode_ivldWord (by rw [plen_ivldWord, Vector.length_toList])
  rw [drive_cons (hstep.trans (execIvld_accepts hb rfl)) rfl (errb_ok none)]
  exact congrArg (drive _ · ms) (List.append_nil out)

/-- Settles O31: KEYLD writes KEY and KEYV alone, IVLD writes IV and IVV alone, and both leave the engine idle. -/
theorem setupCommandsCommute : Obligations.SetupCommandsCommute := by
  intro s k v hb
  have hkey : (s.afterKeyld k).busy = false := hb
  have hiv : (s.afterIvld v).busy = false := hb
  have hkeyKey : ((s.afterKeyld k).afterKeyld k).busy = false := hb
  have hkeyIv : ((s.afterKeyld k).afterIvld v).busy = false := hb
  refine ⟨(s.afterKeyld k).afterIvld v, (s.afterIvld v).afterKeyld k, ((s.afterKeyld k).afterKeyld k).afterIvld v,
    ((s.afterKeyld k).afterIvld v).afterIvld v, ?_, ?_, ?_, ?_, rfl, rfl, rfl, rfl⟩
  · rw [drive_keyldMove _ k _ _ hb, drive_ivldMove _ v _ _ hkey, drive_nil]
  · rw [drive_ivldMove _ v _ _ hb, drive_keyldMove _ k _ _ hiv, drive_nil]
  · rw [drive_keyldMove _ k _ _ hb, drive_keyldMove _ k _ _ hkey, drive_ivldMove _ v _ _ hkeyKey, drive_nil]
  · rw [drive_keyldMove _ k _ _ hb, drive_ivldMove _ v _ _ hkey, drive_ivldMove _ v _ _ hkeyIv, drive_nil]

/-! ### The tests of START while idle, each after the ones before it have passed (41_operation_commands.md R122) -/

section
variable {f : BitVec 2} {m : Mode} {len : Len} (d : Dir)

theorem execStart_unknownMode (hb : s.busy = false) (hm : modeOf f = none) : execStart f d len s = raise .unknownMode s := by
  simp [execStart, hb, hm]

theorem execStart_shortInput (hb : s.busy = false) (hm : modeOf f = some m) (hk : s.keyv = true) (hs : len.toNat < B) :
    execStart f d len s = raise .shortInput s := by
  simp [execStart, hb, hm, hk, lenShort, hs]

theorem execStart_misalignedInput (hb : s.busy = false) (hm : modeOf f = some m) (hk : s.keyv = true) (hs : B ≤ len.toNat)
    (ha : len.toNat % B ≠ 0) : execStart f d len s = raise .misalignedInput s := by
  simp [execStart, hb, hm, hk, lenShort, hs, lenMisaligned, ha]

theorem execStart_missingIV (hb : s.busy = false) (hm : modeOf f = some .cbc) (hk : s.keyv = true) (hs : B ≤ len.toNat)
    (ha : len.toNat % B = 0) (hv : s.ivv = false) : execStart f d len s = raise .missingIV s := by
  simp [execStart, hb, hm, hk, lenShort, hs, lenMisaligned, ha, hv]

end

/-! ### The outcome of a run (42_buffer_operations.md R161, R166) -/

/-- Driving a move whose command takes an error ends there, with the error's code. -/
theorem drive_cons_raise {s s' : State} {mv : HostMove} {ms : List HostMove} {out : List Byte} {x : Err}
    (hs : step { s with moves := [mv] } = raise x s') (hr : s'.rsp = s.rsp) :
    ∃ t, drive s out (mv :: ms) = some (.error x.code, t) :=
  ⟨_, by rw [drive_cons_error hs (congrArg (· ++ _) hr) (errb_err x), code_err]⟩

/-- An operation whose START takes an error ends there. -/
theorem drive_operationMoves_raise {s : State} {f : BitVec 2} {d : Dir} {buf : List Byte} {x : Err}
    (h : execStart f d (BitVec.ofNat 24 buf.length) (s.present [] []) = raise x (s.present [] [])) :
    ∃ t, drive s [] (operationMoves f d buf) = some (.error x.code, t) :=
  drive_cons_raise ((step_start s f d buf.length).trans h) rfl

/-- An operation whose START is accepted emits as many bytes as it takes (42_buffer_operations.md R166). -/
theorem drive_operationMoves_accepted {s : State} {f : BitVec 2} {m : Mode} {buf : List Byte} (d : Dir) (hm : modeOf f = some m)
    (hb : s.busy = false) (hk : s.keyv = true) (hs : 16 ≤ buf.length) (ha : buf.length % 16 = 0) (hbuf : buf.length < 2 ^ 24)
    (hv : m = .cbc → s.ivv = true) :
    ∃ out t, drive s [] (operationMoves f d buf) = some (.output out, t) ∧ out.length = buf.length := by
  obtain ⟨xs, rfl, -⟩ := exists_bytesOf (buf.length / 16) buf (Nat.div_mul_cancel (Nat.dvd_of_mod_eq_zero ha)).symm
  have hne : xs ≠ [] := by rintro rfl; exact absurd hs (by decide)
  obtain ⟨t, ht, -⟩ := drive_operation s f m d xs [] hm hne hbuf hb hk hv
  exact ⟨_, t, ht, by rw [List.nil_append, bytesOf_length, bytesOf_length, stream_length]⟩

/-- The outcome of an operation in an idle state with a key: the first failing test of START, or as many bytes as were given. -/
theorem drive_operationMoves_outcome (s : State) (f : BitVec 2) (d : Dir) (buf : List Byte) (hb : s.busy = false)
    (hk : s.keyv = true) (hbuf : buf.length < 2 ^ 24) :
    ∃ o t, drive s [] (operationMoves f d buf) = some (o, t) ∧
      (if 2 ≤ f.toNat then o = .error 7#8
      else if buf.length < 16 then o = .error 2#8
      else if buf.length % 16 ≠ 0 then o = .error 3#8
      else if f = 1#2 ∧ s.ivv = false then o = .error 4#8
      else ∃ out, o = .output out ∧ out.length = buf.length) := by
  have hlen : (BitVec.ofNat 24 buf.length).toNat = buf.length := by rw [BitVec.toNat_ofNat, Nat.mod_eq_of_lt hbuf]
  by_cases hf : 2 ≤ f.toNat
  · obtain ⟨t, ht⟩ := drive_operationMoves_raise (s := s) (execStart_unknownMode d hb (modeOf_eq_none.2 hf))
    exact ⟨_, t, ht, by rw [if_pos hf]; rfl⟩
  obtain ⟨m, hm⟩ : ∃ m, modeOf f = some m := Option.ne_none_iff_exists'.1 fun h => hf (modeOf_eq_none.1 h)
  by_cases hs : buf.length < 16
  · obtain ⟨t, ht⟩ := drive_operationMoves_raise (s := s) (execStart_shortInput d hb hm hk (by rwa [hlen]))
    exact ⟨_, t, ht, by rw [if_neg hf, if_pos hs]; rfl⟩
  have hs' : 16 ≤ buf.length := Nat.not_lt.1 hs
  by_cases ha : buf.length % 16 ≠ 0
  · obtain ⟨t, ht⟩ := drive_operationMoves_raise (s := s) (execStart_misalignedInput d hb hm hk (by rwa [hlen]) (by rwa [hlen]))
    exact ⟨_, t, ht, by rw [if_neg hf, if_neg hs, if_pos ha]; rfl⟩
  have ha' : buf.length % 16 = 0 := not_not.1 ha
  by_cases hv : f = 1#2 ∧ s.ivv = false
  · obtain ⟨hcbc, hiv⟩ := hv
    have hm1 : modeOf f = some .cbc := modeOf_eq_some.2 (.inr ⟨hcbc, rfl⟩)
    obtain ⟨t, ht⟩ := drive_operationMoves_raise (s := s)
      (execStart_missingIV d hb hm1 hk (by rwa [hlen]) (by rwa [hlen]) hiv)
    exact ⟨_, t, ht, by rw [if_neg hf, if_neg hs, if_neg ha, if_pos ⟨hcbc, hiv⟩]; rfl⟩
  have hcbc : m = .cbc → s.ivv = true := by
    rintro rfl
    have hf1 : f = 1#2 := by simpa using modeOf_eq_some.1 hm
    simpa [hf1] using hv
  obtain ⟨out, t, ht, hout⟩ := drive_operationMoves_accepted d hm hb hk hs' ha' hbuf hcbc
  exact ⟨_, t, ht, by rw [if_neg hf, if_neg hs, if_neg ha, if_neg hv]; exact ⟨out, rfl, hout⟩⟩

/-- Settles O43: a key of another length stops the run at KEYLD; otherwise key and IV are loaded and the rest is the operation's
outcome. -/
theorem runOutcomeByCases : Obligations.RunOutcomeByCases := by
  intro s m d k v buf hb hk hbuf
  rw [run_eq_drive, runMoves]
  by_cases hlen : k.length ≠ 16
  · have hn : (BitVec.ofNat 8 k.length).toNat ≠ 16 := by rwa [BitVec.toNat_ofNat, Nat.mod_eq_of_lt hk]
    obtain ⟨t, ht⟩ := drive_cons_raise ((step_keyld s k hk).trans (execKeyld_badLength hb hn)) rfl
    exact ⟨_, t, ht, by rw [if_pos hlen]; rfl⟩
  obtain ⟨key, rfl, -⟩ := blockOf_isSome (not_not.1 hlen)
  obtain ⟨u, hdrive, hu⟩ := drive_setup s key v (operationMoves m d buf) [] hb
  have hiv : u.ivv = false ↔ v = none := by rw [hu]; exact Option.isSome_eq_false_iff.trans Option.isNone_iff_eq_none
  simp only [if_neg hlen, hdrive, ← hiv]
  exact drive_operationMoves_outcome u m d buf (by rw [hu]; exact hb) (by rw [hu]) hbuf

end Sys2Proof.Machine

/-! The statements of 41_operation_commands.md, and those of 42_buffer_operations.md that follow from its rules command by command:
what START and BLK do, when the engine is busy, and what an accepted operation over a buffer puts out and leaves behind. -/

namespace Sys2Proof.Machine

variable {B : Nat} {P : Primitive B} {s t u : State B} {i : Instr} {r : Response B}

/-! ### START (41_operation_commands.md R122) -/

theorem execStart_busy (f : BitVec 2) (d : Dir) (len : Len) (hb : s.busy = true) : execStart f d len s = raise .badSequence s := by
  rw [execStart, if_pos hb]

theorem execStart_invalidKeyLength {f : BitVec 2} {m : Mode} (d : Dir) (len : Len) (hb : s.busy = false) (hm : modeOf f = some m)
    (hk : s.keyv = false) : execStart f d len s = raise .invalidKeyLength s := by
  simp [execStart, hb, hm, hk]

/-- The known mode fields are those below 2 (30_encoding.md R75). -/
theorem exists_modeOf_iff {f : BitVec 2} : (∃ m, modeOf f = some m) ↔ f.toNat < 2 := by
  rw [← Option.ne_none_iff_exists', Ne, modeOf_eq_none, Nat.not_le]

/-- Of the known mode fields 1 is CBC (30_encoding.md R75). -/
theorem eq_cbc_iff {f : BitVec 2} {m : Mode} (hm : modeOf f = some m) : m = .cbc ↔ f = 1#2 := by
  obtain ⟨rfl, rfl⟩ | ⟨rfl, rfl⟩ := modeOf_eq_some.1 hm <;> decide

/-- Settles O32: test by test in the order of R122; when all pass, the operation is opened. -/
theorem startOpensAnOperationOrReportsTheFirstFailure : Obligations.StartOpensAnOperationOrReportsTheFirstFailure := by
  obtain ⟨-, -, -, henc, hdec, -⟩ := commandWordsAreSums
  refine ⟨henc, hdec, fun s mode dir len => ?_⟩
  by_cases hbusy : s.busy = true
  · rw [if_pos hbusy]; exact execStart_busy mode dir len hbusy
  rw [if_neg hbusy]
  have hb : s.busy = false := by simpa using hbusy
  by_cases hf : 2 ≤ mode.toNat
  · rw [if_pos hf]; exact execStart_unknownMode dir hb (modeOf_eq_none.2 hf)
  rw [if_neg hf]
  obtain ⟨m, hm⟩ := exists_modeOf_iff.2 (Nat.not_le.1 hf)
  by_cases hkey : s.keyv = false
  · rw [if_pos hkey]; exact execStart_invalidKeyLength dir len hb hm hkey
  rw [if_neg hkey]
  have hk : s.keyv = true := by simpa using hkey
  by_cases hshort : len.toNat < 16
  · rw [if_pos hshort]; exact execStart_shortInput dir hb hm hk hshort
  rw [if_neg hshort]
  have hs : 16 ≤ len.toNat := Nat.not_lt.1 hshort
  by_cases hmod : len.toNat % 16 ≠ 0
  · rw [if_pos hmod]; exact execStart_misalignedInput dir hb hm hk hs hmod
  rw [if_neg hmod]
  have ha : len.toNat % 16 = 0 := not_not.1 hmod
  by_cases hiv : mode = 1#2 ∧ s.ivv = false
  · rw [if_pos hiv]; exact execStart_missingIV dir hb ((eq_cbc_iff hm).2 hiv.1 ▸ hm) hk hs ha hiv.2
  rw [if_neg hiv]
  have hacc : Accepts s m len := ⟨hb, hk, hs, ha, fun h => by simpa [(eq_cbc_iff hm).1 h] using hiv⟩
  obtain ⟨rfl, rfl⟩ | ⟨rfl, rfl⟩ := modeOf_eq_some.1 hm <;> exact execStart_accepts dir hm hacc

/-- Settles O33: such a START passes every test, and the count of blocks is exact because n * 16 fits 24 bits. -/
theorem acceptedStartCompletes : Obligations.AcceptedStartCompletes := by
  intro s mode dir n hb hf hk hpos hmax hv
  have hlen : (BitVec.ofNat 24 (n * 16)).toNat = n * 16 := by rw [BitVec.toNat_ofNat]; omega
  obtain ⟨m, hm⟩ := exists_modeOf_iff.2 hf
  have hacc : Accepts s m (BitVec.ofNat 24 (n * 16)) :=
    ⟨hb, hk, by rw [hlen]; exact Nat.le_mul_of_pos_left 16 hpos, by rw [hlen]; exact Nat.mul_mod_left n 16,
      fun h => hv ((eq_cbc_iff hm).1 h)⟩
  have hcount : (blockCount (BitVec.ofNat 24 (n * 16))).toNat = n := by
    rw [blockCount_toNat, hlen]; exact Nat.mul_div_cancel n (by decide)
  exact ⟨_, execStart_accepts dir hm hacc, rfl, hcount, rfl, rfl, eq_cbc_iff hm, rfl, rfl, rfl, rfl, rfl⟩

/-! ### BLK (41_operation_commands.md R129 to R135) -/

/-- BLK while no operation is open (41_operation_commands.md R135 (a)). -/
theorem blkOver_idle (hb : s.busy = false) : blkOver P s = raise .badSequence s := by
  simp [blkOver, hb]

/-- Settles O39: at B = 16 and over the free primitive. -/
theorem blkWhileIdleFails : Obligations.BlkWhileIdleFails := fun _ hb => blkOver_idle hb

/-- An in-sequence BLK as a whole next state, from what its mode and direction make of output block `y` and chain `c`
(41_operation_commands.md R129, R134). -/
theorem exec_blk_eq {s : State} {x y c : Block} (hb : s.busy = true) (hx : s.din = x.toList)
    (hy : outputBlock Config.primitive s.mode s.dir s.key s.chain x = y) (hc : nextChain s.mode s.dir s.chain x y = c) :
    exec .blk s = if s.idx.toNat + 1 = s.nblk.toNat then .next (s.closeOperation.respond ⟨okLastWord, some y⟩)
      else .next ((s.advance c).respond ⟨okDataWord, some y⟩) := by
  subst hy hc
  refine (execBlk_busy hb hx).trans ?_
  split_ifs with h
  · rw [processBlock_last (by simpa [State.atLast] using h)]
  · rw [processBlock_open (by simpa [State.atLast] using h)]

/-- Settles O35: ECB encrypt puts out E(KEY, x) and keeps CHAIN. -/
theorem blkEcbEncrypt : Obligations.BlkEcbEncrypt := fun s _ hb hm hd hx =>
  exec_blk_eq (c := s.chain) hb hx (by rw [hm, hd]; rfl) (by rw [hm]; rfl)

/-- Settles O36: ECB decrypt puts out D(KEY, x) and keeps CHAIN. -/
theorem blkEcbDecrypt : Obligations.BlkEcbDecrypt := fun s _ hb hm hd hx =>
  exec_blk_eq (c := s.chain) hb hx (by rw [hm, hd]; rfl) (by rw [hm]; rfl)

/-- Settles O37: CBC encrypt puts out E(KEY, x XOR CHAIN), which CHAIN takes. -/
theorem blkCbcEncrypt : Obligations.BlkCbcEncrypt := fun _ _ hb hm hd hx =>
  exec_blk_eq hb hx (by rw [hm, hd]; rfl) (by rw [hm, hd]; rfl)

/-- Settles O38: CBC decrypt puts out D(KEY, x) XOR CHAIN, and CHAIN takes x. -/
theorem blkCbcDecrypt : Obligations.BlkCbcDecrypt := fun _ _ hb hm hd hx =>
  exec_blk_eq hb hx (by rw [hm, hd]; rfl) (by rw [hm, hd]; rfl)

/-! ### ECB ignores the IV (41_operation_commands.md R126) -/

/-- `s` with another IV, or none. -/
def State.withIv (s : State B) (v : Block B) (b : Bool) : State B := { s with iv := v, ivv := b }

/-- Where `a` answers a next state, `a'` answers the same state with the IV `v`, `b`. -/
def SameWithIv (v : Block B) (b : Bool) (a a' : Result B) : Prop := ∀ t, a = .next t → a' = .next (t.withIv v b)

variable {v : Block B} {b : Bool}

theorem SameWithIv.next : SameWithIv v b (.next t) (.next (t.withIv v b)) := by
  rintro _ ⟨⟩; rfl

/-- A test that does not read the IV keeps agreement up to the IV. -/
theorem SameWithIv.ite {p : Prop} [Decidable p] {a a' c c' : Result B} (ha : SameWithIv v b a a') (hc : SameWithIv v b c c') :
    SameWithIv v b (if p then a else c) (if p then a' else c') := by
  split
  · exact ha
  · exact hc

/-- Each test of a START in mode ECB reads other elements than the IV, the test for the IV does not apply, and the chain is zeros. -/
theorem execStart_ecb_sameWithIv (d : Dir) (len : Len) (s : State B) :
    SameWithIv v b (execStart 0#2 d len s) (execStart 0#2 d len (s.withIv v b)) := by
  have hm : modeOf 0#2 = some .ecb := rfl
  simp only [execStart, hm, reduceCtorEq, false_and, if_false]
  exact .ite .next (.ite .next (.ite .next (.ite .next .next)))

/-- An in-sequence BLK neither reads nor writes the IV (41_operation_commands.md R129). -/
theorem processBlock_withIv (x : Block B) : processBlock P x (s.withIv v b) = (processBlock P x s).withIv v b := by
  cases hl : s.atLast with
  | true => rw [processBlock_last hl, processBlock_last (s := s.withIv v b) hl]; rfl
  | false => rw [processBlock_open hl, processBlock_open (s := s.withIv v b) hl]; rfl

theorem blkOver_sameWithIv (s : State B) : SameWithIv v b (blkOver P s) (blkOver P (s.withIv v b)) := by
  intro t h
  obtain ⟨hb, rfl⟩ | ⟨hb, x, hx, rfl⟩ := blkOver_cases h
  · exact blkOver_idle (s := s.withIv v b) hb
  · rw [blkOver_busy (s := s.withIv v b) hb hx, processBlock_withIv]

/-- Settles O16: START in mode ECB and BLK, each up to the IV. -/
theorem ecbIgnoresTheIv : Obligations.EcbIgnoresTheIv := fun s t d len _ _ =>
  ⟨execStart_ecb_sameWithIv d len s t, blkOver_sameWithIv s t⟩

/-! ### Idle and busy (41_operation_commands.md R121) -/

/-- The command that opens an operation is an accepted START. -/
theorem Succeeds.opens (h : Succeeds P s i u r) (hs : s.busy = false) (hu : u.busy = true) :
    ∃ f m d len, i = .start f d len ∧ modeOf f = some m ∧ Accepts s m len := by
  cases h with
  | start known accepted => exact ⟨_, _, _, _, rfl, known, accepted⟩
  | blkLast => cases hu
  | _ => exact absurd (hs.symm.trans hu) nofun

/-- The command that closes an operation is the BLK of its last block. -/
theorem Succeeds.closes (h : Succeeds P s i u r) (hs : s.busy = true) (hu : u.busy = false) :
    i = .blk ∧ s.idx.toNat + 1 = s.nblk.toNat := by
  cases h with
  | blkLast _ _ last _ => exact ⟨rfl, by simpa [State.atLast] using last⟩
  | start => cases hu
  | _ => exact absurd (hu.symm.trans hs) nofun

/-- Everything a step that answers a next state can have done, with the moves it found: it waited, performed a reset (which forgets a
payload cut short, 70_reset_and_hazards.md R231), or ran a whole command, which took an error or succeeded. -/
theorem stepOver_cases (h : stepOver P s = .next t) :
    t = s ∨
    (∃ rest, (s.moves = .reset :: rest ∨ ∃ w p, s.moves = .issue w p :: .reset :: rest ∧ p.length < plen w B) ∧
      t = (s.present rest []).hostReset) ∨
    ∃ w p rest, s.moves = .issue w p :: rest ∧
      ((∃ x, Raised x (s.present rest p) t) ∨
        ∃ i u r, decode w = .ok i ∧ Succeeds P (s.present rest p) i u r ∧ t = u.respond r) := by
  obtain ⟨e, -⟩ | ⟨rest, e, hm⟩ | ⟨w, p, rest, -, hm, hp⟩ | ⟨e, -⟩ := takeMove_cases (B := B) s.moves
  · exact .inl (by simpa [stepOver, stepWith, e, eq_comm] using h)
  · exact .inr (.inl ⟨rest, hm, by simpa [stepOver, stepWith, e, eq_comm] using h⟩)
  · refine .inr (.inr ⟨w, p, rest, hm, ?_⟩)
    obtain ⟨x, hx⟩ | ⟨i, u, r, hd, hu, hx⟩ := stepOver_command P hm hp
    · exact .inl ⟨x, (Host.Outcome.next.inj (hx.symm.trans h)).symm⟩
    · exact .inr ⟨i, u, r, hd, hu, (Host.Outcome.next.inj (hx.symm.trans h)).symm⟩
  · simp [stepOver, stepWith, e] at h

/-- Settles O26: waiting and an error keep BUSY, a reset clears it, and of the successes only an accepted START sets it and only the
BLK of the last block clears it. -/
theorem busyChangesOnlyByStartLastBlockOrReset : Obligations.BusyChangesOnlyByStartLastBlockOrReset := by
  intro s t h
  rw [step_eq_stepOver] at h
  obtain rfl | ⟨rest, hm, rfl⟩ | ⟨w, p, rest, hm, ⟨x, rfl⟩ | ⟨i, u, r, hd, hu, rfl⟩⟩ := stepOver_cases h
  · exact ⟨fun hs ht => absurd (hs.symm.trans ht) nofun, fun hs ht => absurd (ht.symm.trans hs) nofun⟩
  · exact ⟨fun _ => nofun, fun _ _ => .inr ⟨rest, hm⟩⟩
  · exact ⟨fun hs ht => absurd (hs.symm.trans ht) nofun, fun hs ht => absurd (ht.symm.trans hs) nofun⟩
  · rw [← encodeOfDecodedIsTheWord w i hd] at hm
    refine ⟨fun hs ht => ?_, fun hs ht => ?_⟩
    · obtain ⟨f, m, d, len, rfl, hf, -, hk, hlen, hmod, hv⟩ := hu.opens hs ht
      exact ⟨f, d, len, p, rest, hm, exists_modeOf_iff.1 ⟨m, hf⟩, hk, hlen, hmod, fun h1 => hv ((eq_cbc_iff hf).2 h1)⟩
    · obtain ⟨rfl, hlast⟩ := hu.closes hs ht
      exact .inl ⟨p, rest, hm, hlast⟩

/-! ### What an operation that gave its output has done (42_buffer_operations.md R160) -/

/-- An operation that was driven to its output had an accepted START, over a buffer of whole blocks: the output is the stream of these
blocks, and the operation is closed (41_operation_commands.md R122, R134). -/
theorem drive_operationMoves_output {s t : State} {f : BitVec 2} {d : Dir} {buf out : List Byte} (hbuf : buf.length < 2 ^ 24)
    (h : drive s [] (operationMoves f d buf) = some (.output out, t)) :
    ∃ m xs, modeOf f = some m ∧ buf = bytesOf xs ∧ xs ≠ [] ∧ (m = .cbc → s.ivv = true) ∧
      out = bytesOf (stream Config.primitive m d s.key (firstChain m s.iv) xs) ∧
      t.toElements =
        { s.toElements with busy := false, mode := .ecb, dir := .enc, nblk := 0#24, idx := 0#24, chain := Block.zeros } := by
  have hlen : (BitVec.ofNat 24 buf.length).toNat = buf.length := by rw [BitVec.toNat_ofNat, Nat.mod_eq_of_lt hbuf]
  obtain ⟨u, hu⟩ := execOver_next Config.primitive (s := s.present [] []) (i := .start f d (BitVec.ofNat 24 buf.length)) rfl
  obtain ⟨x, rfl⟩ | ⟨m, hm, ⟨hb, hk, hs, ha, hv⟩, -⟩ := execStart_cases hu
  · obtain ⟨t', ht'⟩ := drive_operationMoves_raise (s := s) (x := x) hu
    simp [h] at ht'
  rw [hlen] at hs ha
  obtain ⟨xs, rfl, -⟩ := exists_bytesOf (buf.length / 16) buf (Nat.div_mul_cancel (Nat.dvd_of_mod_eq_zero ha)).symm
  have hne : xs ≠ [] := by rintro rfl; exact absurd hs (by decide)
  obtain ⟨t', ht', he⟩ := drive_operation s f m d xs [] hm hne hbuf hb hk hv
  rw [h, Option.some_inj, Prod.mk.injEq, RunOutcome.output.injEq] at ht'
  obtain ⟨rfl, rfl⟩ := ht'
  exact ⟨m, xs, hm, rfl, hne, hv, rfl, he⟩

/-- Closing an operation writes what a legal idle state holds already (10_state.md R34). -/
theorem Elements.IdleForm.closed_eq {e : Elements B} (h : e.IdleForm) (hb : e.busy = false) :
    { e with busy := false, mode := .ecb, dir := .enc, nblk := 0#24, idx := 0#24, chain := Block.zeros } = e := by
  obtain ⟨hmode, hdir, hnblk, hidx, hchain⟩ := h
  cases e
  simp_all

/-- Settles O52: the operation is closed with every other element as it was, which is the idle form of a legal state. -/
theorem operationLeavesNoTrace : Obligations.OperationLeavesNoTrace := by
  intro s t m d buf out hb hs hbuf h
  obtain ⟨-, -, hidle, -⟩ := hs
  obtain ⟨-, -, -, -, -, -, -, he⟩ := drive_operationMoves_output hbuf h
  exact he.trans ((hidle hb).closed_eq hb)

/-- A run that gave its output started idle, over a buffer of whole blocks: the output is the stream of these blocks under the run's
own key and IV (42_buffer_operations.md R160). -/
theorem run_output {s t : State} {f : BitVec 2} {m : Mode} {d : Dir} {k : Block} {v : Option Block} {buf out : List Byte}
    (hm : modeOf f = some m) (hbuf : buf.length < 2 ^ 24) (h : run s f d k.toList v buf = some (.output out, t)) :
    ∃ xs, buf = bytesOf xs ∧ xs ≠ [] ∧ s.busy = false ∧
      out = bytesOf (stream Config.primitive m d k (firstChain m (v.getD Block.zeros)) xs) := by
  rw [run_eq_drive, runMoves] at h
  cases hb : s.busy with
  | true =>
    have hstep := (step_keyld s k.toList (by simp [Config.B])).trans (execKeyld_busy _ hb)
    obtain ⟨t', ht'⟩ := drive_cons_raise (ms := ivMove v :: operationMoves f d buf) (out := []) hstep rfl
    simp [h] at ht'
  | false =>
    obtain ⟨u, hu, he⟩ := drive_setup s k v (operationMoves f d buf) [] hb
    obtain ⟨m', xs, hm', hxs, hne, -, hout, -⟩ := drive_operationMoves_output hbuf (hu.symm.trans h)
    obtain rfl : m = m' := Option.some.inj (hm.symm.trans hm')
    exact ⟨xs, hxs, hne, rfl, by rw [hout, he]⟩

/-! ### ECB over a buffer (42_buffer_operations.md R162, R163) -/

/-- In ECB every block is transformed by itself, whatever the chain. -/
theorem stream_ecb (Q : Primitive) (d : Dir) (k c : Block) (xs : List Block) :
    stream Q .ecb d k c xs = xs.map (outputBlock Q .ecb d k c) := by
  induction xs with
  | nil => rfl
  | cons x xs ih => rw [List.map_cons, ← ih]; cases d <;> rfl

/-- Output block i of a run in mode ECB is the transform of input block i. -/
theorem blk_run_ecb {s t : State} {d : Dir} {k : Block} {v : Option Block} {buf out : List Byte} (hbuf : buf.length < 2 ^ 24)
    (h : run s 0#2 d k.toList v buf = some (.output out, t)) (j : Nat) :
    blk out j = (blk buf j).map (outputBlock Config.primitive .ecb d k Block.zeros) := by
  obtain ⟨xs, rfl, -, -, rfl⟩ := run_output (m := .ecb) rfl hbuf h
  rw [blk_bytesOf, blk_bytesOf, stream_ecb, List.getElem?_map]
  rfl

/-- A run in mode ECB that gave its output gives the same under any IV operand (41_operation_commands.md R126). -/
theorem run_ecb_any_iv {s t : State} {d : Dir} {k : Block} {v : Option Block} {buf out : List Byte} (hbuf : buf.length < 2 ^ 24)
    (h : run s 0#2 d k.toList v buf = some (.output out, t)) (v' : Option Block) :
    ∃ t', run s 0#2 d k.toList v' buf = some (.output out, t') := by
  obtain ⟨xs, rfl, hne, hb, rfl⟩ := run_output (m := .ecb) rfl hbuf h
  exact run_accepted s 0#2 .ecb d k v' xs rfl hne hbuf hb nofun

/-- Settles O44: the ECB encryption transform is E. -/
theorem ecbEncryptionOfABuffer : Obligations.EcbEncryptionOfABuffer := fun _ _ _ _ _ _ hbuf h =>
  ⟨blk_run_ecb hbuf h, run_ecb_any_iv hbuf h⟩

/-- Settles O45: the ECB decryption transform is D. -/
theorem ecbDecryptionOfABuffer : Obligations.EcbDecryptionOfABuffer := fun _ _ _ _ _ _ hbuf h => blk_run_ecb hbuf h

/-! ### CBC over a buffer (42_buffer_operations.md R164, R165) -/

/-- The blocks CHAIN takes one after another in CBC: the output blocks when encrypting, the input blocks when decrypting
(41_operation_commands.md R132, R133). -/
def chainBlocks (Q : Primitive) (d : Dir) (k c : Block) (xs : List Block) : List Block :=
  match d with
  | .enc => stream Q .cbc .enc k c xs
  | .dec => xs

theorem chainBlocks_cons (Q : Primitive) (d : Dir) (k c x : Block) (xs : List Block) :
    chainBlocks Q d k c (x :: xs) =
      nextChain .cbc d c x (outputBlock Q .cbc d k c x) ::
        chainBlocks Q d k (nextChain .cbc d c x (outputBlock Q .cbc d k c x)) xs := by
  cases d <;> rfl

/-- In CBC block i is transformed under the chain that block i - 1 left, which for i = 0 is the first one. -/
theorem stream_cbc_getElem? (Q : Primitive) (d : Dir) (k c : Block) {xs : List Block} {j : Nat} {x : Block} (h : xs[j]? = some x) :
    ∃ prev, (c :: chainBlocks Q d k c xs)[j]? = some prev ∧
      (stream Q .cbc d k c xs)[j]? = some (outputBlock Q .cbc d k prev x) := by
  induction xs generalizing c j with
  | nil => cases h
  | cons y ys ih =>
    cases j with
    | zero => cases h; exact ⟨c, rfl, rfl⟩
    | succ j => rw [chainBlocks_cons]; exact ih _ h

/-- `prev` is the list of blocks with the IV before it. -/
theorem cbcPrev_bytesOf (v : Block) (xs : List Block) (j : Nat) : cbcPrev v (bytesOf xs) j = (v :: xs)[j]? := by
  cases j with
  | zero => rfl
  | succ j => exact blk_bytesOf xs j

/-- Output block i of a run in mode CBC is the transform of input block i under `prev`, taken from the output when encrypting and from
the input when decrypting. -/
theorem blk_run_cbc {s t : State} {d : Dir} {k v : Block} {buf out : List Byte} (hbuf : buf.length < 2 ^ 24)
    (h : run s 1#2 d k.toList (some v) buf = some (.output out, t)) {j : Nat} {x : Block} (hx : blk buf j = some x) :
    ∃ prev, cbcPrev v (if d = .enc then out else buf) j = some prev ∧
      blk out j = some (outputBlock Config.primitive .cbc d k prev x) := by
  obtain ⟨xs, rfl, -, -, rfl⟩ := run_output (m := .cbc) rfl hbuf h
  rw [blk_bytesOf] at hx ⊢
  obtain ⟨prev, hprev, hout⟩ := stream_cbc_getElem? Config.primitive d k v hx
  refine ⟨prev, ?_, hout⟩
  cases d <;> exact (cbcPrev_bytesOf v _ j).trans hprev

/-- Settles O46: the CBC encryption transform is E of the XOR with `prev`. -/
theorem cbcEncryptionOfABuffer : Obligations.CbcEncryptionOfABuffer := fun _ _ _ _ _ _ hbuf h _ _ hx => blk_run_cbc hbuf h hx

/-- Settles O47: the CBC decryption transform is the XOR of D with `prev`. -/
theorem cbcDecryptionOfABuffer : Obligations.CbcDecryptionOfABuffer := fun _ _ _ _ _ _ hbuf h _ _ hx => blk_run_cbc hbuf h hx

end Sys2Proof.Machine

/-! The statements of 60_exceptions.md: the errors' codes and response words, the failure of reserved words, and which commands are
in sequence. -/

namespace Sys2Proof.Machine

variable {B : Nat} {P : Primitive B} {s t u : State B} {i : Instr} {r : Response B} {x y : Err}

/-! ### The response words of the errors (60_exceptions.md R191; 30_encoding.md R78) -/

/-- `ERR(c)` field by field: ERRB set, every other bit above CODE clear, and CODE. -/
theorem errWord_eq_append (c : BitVec 8) : errWord c = 0x800000#24 ++ c := by
  apply BitVec.eq_of_toNat_eq
  rw [toNat_append_eq_add, errWord, BitVec.toNat_add, BitVec.toNat_setWidth, BitVec.toNat_ofNat, BitVec.toNat_ofNat]
  omega

theorem toNat_errWord (c : BitVec 8) : (errWord c).toNat = 0x80000000 + c.toNat := by
  rw [errWord_eq_append, toNat_append_eq_add]; rfl

/-- The bits of `ERR(c)` above CODE do not depend on `c`. -/
theorem getLsbD_errWord_high (c : BitVec 8) (j : Nat) : (errWord c).getLsbD (8 + j) = (0x800000#24).getLsbD j := by
  rw [errWord_eq_append, BitVec.getLsbD_append, if_neg (by omega), Nat.add_sub_cancel_left]

@[simp] theorem code_errWord (c : BitVec 8) (b : Option (Block B)) : Response.code ⟨errWord c, b⟩ = c := by
  show (errWord c).extractLsb' 0 8 = c
  rw [errWord_eq_append, BitVec.extractLsb'_append_eq_right]

/-- Settles O23: the codes by R191's table, and the fields of `ERR(c)` from its form `0x800000 ++ c`. -/
theorem errorCodesAndTheirResponses : Obligations.ErrorCodesAndTheirResponses :=
  ⟨rfl, rfl, rfl, rfl, rfl, rfl, rfl, fun c =>
    ⟨getLsbD_errWord_high c 23, getLsbD_errWord_high c 22, getLsbD_errWord_high c 21, code_errWord c none, toNat_errWord c⟩⟩

theorem Err.code_injective : Function.Injective Err.code := by
  intro x y; cases x <;> cases y <;> decide

/-- Errors are told apart by their response words. -/
theorem errWord_code_inj : errWord x.code = errWord y.code ↔ x = y := by
  refine ⟨fun h => Err.code_injective ?_, fun h => h ▸ rfl⟩
  rw [← code_errWord (B := 0) x.code none, h, code_errWord]

/-- A response with ERRB = 0 has no error's word. -/
theorem word_ne_errWord (h : r.errb = false) (x : Err) : r.word ≠ errWord x.code := by
  intro hw
  have herr : r.errb = true := (congrArg (·.getLsbD 31) hw).trans (getLsbD_errWord_high x.code 23)
  rw [h] at herr; cases herr

/-! ### Reserved words (60_exceptions.md R197) -/

/-- A reserved word fails before any instruction's meaning is asked. -/
theorem stepWith_reserved {ex : Instr → State B → Result B} {w : Word} {p : List Byte} {rest : List HostMove} {e : Reserved}
    (hm : s.moves = .issue w p :: rest) (hp : p.length = plen w B) (hd : decode w = .error e) :
    stepWith ex s = raise .badCommand (s.present rest p) := by
  rw [stepWith_command hm hp, runWord, hd]

/-- Settles O18: `stepWith_reserved` at B = 16, as a whole next state. -/
theorem reservedWordFailsWithBadCommand : Obligations.ReservedWordFailsWithBadCommand :=
  fun _ _ _ _ _ hm hp hd => stepWith_reserved hm hp hd

/-! ### What is an error, and what is not (60_exceptions.md R190, R195) -/

theorem Raised.unique (hx : Raised x s t) (hy : Raised y s t) : x = y :=
  Err.code_injective (congrArg (fun t : State B => t.err) (hx.symm.trans hy))

/-- A response with ERRB = 0 is not that of an error. -/
theorem not_raised_respond (h : r.errb = false) : ¬Raised x s (u.respond r) := by
  intro hx
  have hr : u.rsp ++ [r] = s.rsp ++ [⟨errWord x.code, none⟩] := congrArg State.rsp hx
  obtain ⟨-, hr⟩ := List.append_inj' hr rfl
  exact word_ne_errWord h x (congrArg Response.word (List.singleton_inj.1 hr))

/-- An in-sequence BLK takes no error. -/
theorem not_raised_processBlock (z : Block B) : ¬Raised x s (processBlock P z s) := by
  cases hl : s.atLast with
  | false => rw [processBlock_open hl]; exact not_raised_respond (errb_okData _)
  | true => rw [processBlock_last hl]; exact not_raised_respond (errb_okLast _)

/-- The tests START makes while idle answer the codes 1, 2, 3, 4, 7 (41_operation_commands.md R122). -/
theorem execStart_idle (f : BitVec 2) (d : Dir) (len : Len) (hb : s.busy = false) :
    (∃ x, x.code ∈ [1#8, 2#8, 3#8, 4#8, 7#8] ∧ execStart f d len s = raise x s) ∨ ∃ u, execStart f d len s = respondOk u := by
  rw [execStart, if_neg (by simp [hb])]
  split
  · exact .inl ⟨.unknownMode, by decide, rfl⟩
  split_ifs
  · exact .inl ⟨.invalidKeyLength, by decide, rfl⟩
  · exact .inl ⟨.shortInput, by decide, rfl⟩
  · exact .inl ⟨.misalignedInput, by decide, rfl⟩
  · exact .inl ⟨.missingIV, by decide, rfl⟩
  · exact .inr ⟨_, rfl⟩

/-! ### Commands in sequence (60_exceptions.md R199) -/

/-- The commands that are out of sequence while BUSY is `busy`: the table of 60_exceptions.md R199 for the words that decode. -/
def OutOfSequence (busy : Bool) : Instr → Prop
  | .keyld _ | .ivld | .ivclr | .start _ _ _ => busy = true
  | .blk => busy = false
  | .errclr => False

/-- A command out of sequence fails with BadSequence before any of its operand tests. -/
theorem execOver_outOfSequence (h : OutOfSequence s.busy i) : execOver P i s = raise .badSequence s := by
  cases i with
  | keyld n => exact execKeyld_busy n h
  | ivld => exact execIvld_busy h
  | ivclr => exact execIvclr_busy h
  | start f d len => exact execStart_busy f d len h
  | blk => exact blkOver_idle h
  | errclr => cases h

/-- A command in sequence goes on to its operand tests: an error it takes has one of the codes 1, 2, 3, 4, 7. -/
theorem code_of_raised_inSequence (hseq : ¬OutOfSequence s.busy i) (h : execOver P i s = .next t) (hx : Raised x s t) :
    x.code ∈ [1#8, 2#8, 3#8, 4#8, 7#8] := by
  cases i with
  | keyld n =>
    obtain ⟨hb, -⟩ | ⟨-, -, ht⟩ | ⟨-, -, k, -, rfl⟩ := execKeyld_cases h
    · exact absurd hb hseq
    · rw [hx.unique ht]; decide
    · exact absurd hx (not_raised_respond (errb_ok none))
  | ivld =>
    obtain ⟨hb, -⟩ | ⟨-, v, -, rfl⟩ := execIvld_cases h
    · exact absurd hb hseq
    · exact absurd hx (not_raised_respond (errb_ok none))
  | ivclr =>
    obtain ⟨hb, -⟩ | ⟨-, rfl⟩ := execIvclr_cases h
    · exact absurd hb hseq
    · exact absurd hx (not_raised_respond (errb_ok none))
  | start f d len =>
    obtain ⟨y, hy, he⟩ | ⟨u, he⟩ := execStart_idle f d len (Bool.eq_false_of_not_eq_true hseq)
    · rwa [hx.unique (Host.Outcome.next.inj (h.symm.trans he))]
    · cases he.symm.trans h
      exact absurd hx (not_raised_respond (errb_ok none))
  | blk =>
    obtain ⟨hb, -⟩ | ⟨-, z, -, rfl⟩ := blkOver_cases h
    · exact absurd hb hseq
    · exact absurd hx (not_raised_processBlock z)
  | errclr =>
    cases execErrclr_cases h
    exact absurd hx (not_raised_respond (errb_ok none))

/-- What a whole command answers: BadCommand for a reserved word alone, BadSequence out of sequence alone, otherwise an error of the
operand tests; or it succeeds, decoded and in sequence. -/
theorem stepOver_sequence (P : Primitive B) {w : Word} {p : List Byte} {rest : List HostMove} (hm : s.moves = .issue w p :: rest)
    (hp : p.length = plen w B) :
    (∃ x, stepOver P s = raise x (s.present rest p) ∧ (x = .badCommand ↔ ∃ e, decode w = .error e) ∧
      (x = .badSequence ↔ ∃ i, decode w = .ok i ∧ OutOfSequence s.busy i)) ∨
    ∃ i u r, stepOver P s = .next (u.respond r) ∧ decode w = .ok i ∧ ¬OutOfSequence s.busy i ∧ Succeeds P (s.present rest p) i u r := by
  cases hd : decode w with
  | error e => exact .inl ⟨.badCommand, stepWith_reserved hm hp hd, by simp, by simp⟩
  | ok i =>
    rw [stepOver, stepWith_command hm hp, runWord, hd]
    by_cases hseq : OutOfSequence s.busy i
    · exact .inl ⟨.badSequence, execOver_outOfSequence hseq, by simp, by simp [hseq]⟩
    obtain ⟨x, h⟩ | ⟨u, r, hu, h⟩ := execOver_answers P (s := s.present rest p) (hp.trans (plen_of_decode hd B))
    · have hcode : x.code ∈ [1#8, 2#8, 3#8, 4#8, 7#8] := code_of_raised_inSequence (s := s.present rest p) hseq h rfl
      have hcommand : x ≠ .badCommand := by rintro rfl; revert hcode; decide
      have hsequence : x ≠ .badSequence := by rintro rfl; revert hcode; decide
      exact .inl ⟨x, h, by simp [hcommand], by simp [hsequence, hseq]⟩
    · exact .inr ⟨i, u, r, h, rfl, hseq, hu⟩

/-- Being out of sequence, listed as R199's table lists it. -/
theorem exists_outOfSequence_iff {a : Except Reserved Instr} {b : Bool} : (∃ i, a = .ok i ∧ OutOfSequence b i) ↔
    ((∃ n, a = .ok (.keyld n)) ∨ a = .ok .ivld ∨ a = .ok .ivclr ∨ ∃ m d l, a = .ok (.start m d l)) ∧ b = true ∨
      a = .ok .blk ∧ b = false := by
  cases a with
  | error e => simp
  | ok i => cases i <;> simp [OutOfSequence]

/-- Settles O25: an error's word tells which error it is, and a success has no error's word. -/
theorem sequenceTable : Obligations.SequenceTable := by
  intro s w p rest hm hp
  rw [step_eq_stepOver, ← exists_outOfSequence_iff]
  obtain ⟨x, h, hcommand, hsequence⟩ | ⟨i, u, r, h, hd, hseq, hu⟩ := stepOver_sequence Config.primitive hm hp
  · refine ⟨_, ⟨errWord x.code, none⟩, h, rfl, fun _ => ?_, (errWord_code_inj (y := .badCommand)).trans hcommand,
      (errWord_code_inj (y := .badSequence)).trans hsequence⟩
    rw [code_errWord]; cases x <;> decide
  · obtain ⟨hok, -⟩ := hu.response_ok
    refine ⟨_, r, h, by simp [hu.rsp_eq], fun he => ?_, iff_of_false (word_ne_errWord hok .badCommand) (by simp [hd]),
      iff_of_false (word_ne_errWord hok .badSequence) (by simp [hd, hseq])⟩
    rw [hok] at he; cases he

end Sys2Proof.Machine

/-! The statements of 70_reset_and_hazards.md: what a reset between two steps does, and what an operation it cuts short has already
put out. -/

namespace Sys2Proof.Machine

variable {B : Nat} {s : State B}

/-! ### Reset at a step boundary (70_reset_and_hazards.md R230 to R232) -/

/-- A step that finds reset asserted performs it, over any meanings of the instructions. -/
theorem stepWith_reset {ex : Instr → State B → Result B} {rest : List HostMove} (hm : s.moves = .reset :: rest) :
    stepWith ex s = .next (s.present rest []).hostReset := by
  simp [stepWith, hm, takeMove]

/-- Settles O9: the state after is `hostReset`'s, whose elements are those at reset; there the status words read 0. -/
theorem hostResetZeroesEveryElement : Obligations.HostResetZeroesEveryElement := by
  intro s rest hm
  obtain ⟨hstatus, hnblk, hidx, -⟩ := statusWordsShowTheElements
  exact ⟨_, stepWith_reset hm, rfl, rfl, rfl, hstatus, hnblk, hidx⟩

/-! ### An operation cut short (70_reset_and_hazards.md R232; 20_memory.md R61) -/

/-- The bytes of the first blocks are the first bytes. -/
theorem bytesOf_take {xs : List Block} {n : Nat} (hn : n ≤ xs.length) : bytesOf (xs.take n) = (bytesOf xs).take (n * 16) := by
  have hsplit : bytesOf xs = bytesOf (xs.take n) ++ bytesOf (xs.drop n) := by
    rw [bytesOf, bytesOf, bytesOf, ← List.flatMap_append, List.take_append_drop]
  rw [hsplit, List.take_left' (by rw [bytesOf_length, List.length_take_of_le hn])]

/-- START and the first `n` BLKs of an operation over blocks (30_encoding.md R83). -/
theorem take_operationMoves (f : BitVec 2) (d : Dir) (xs : List Block) (n : Nat) :
    (operationMoves f d (bytesOf xs)).take (1 + n) =
      startMove f d (bytesOf xs).length :: (xs.take n).map fun x => blkMove x.toList := by
  rw [operationMoves, Nat.add_comm, List.take_succ_cons, blkMoves_bytesOf, List.map_take]

/-- Driving an accepted START: the operation is open, and nothing has been put out yet (41_operation_commands.md R122). -/
theorem drive_startMove {s : State} {f : BitVec 2} {m : Mode} {len : Nat} (d : Dir) (ms : List HostMove) (out : List Byte)
    (hm : modeOf f = some m) (h : Accepts (s.present [] []) m (BitVec.ofNat 24 len)) :
    drive s out (startMove f d len :: ms) =
      drive (((s.present [] []).openOperation m d (BitVec.ofNat 24 len)).respond ⟨okWord, none⟩) out ms :=
  (drive_cons ((step_start s f d len).trans (execStart_accepts d hm h)) rfl (errb_ok none)).trans
    (congrArg (drive _ · ms) (List.append_nil out))

/-- Driving an accepted operation up to a block that is not the last: the output is the stream of the blocks so far, and the operation
is open at the next one. -/
theorem drive_operationMoves_open {s : State} {f : BitVec 2} {m : Mode} {xs : List Block} {n : Nat} (d : Dir)
    (hm : modeOf f = some m) (hlen : (bytesOf xs).length < 2 ^ 24) (hb : s.busy = false) (hk : s.keyv = true)
    (hv : m = .cbc → s.ivv = true) (hn : n < xs.length) :
    ∃ t, drive s [] ((operationMoves f d (bytesOf xs)).take (1 + n)) =
        some (.output (bytesOf (stream Config.primitive m d s.key (firstChain m s.iv) (xs.take n))), t) ∧
      t.busy = true ∧ t.idx.toNat = n := by
  have hbytes : (BitVec.ofNat 24 (bytesOf xs).length).toNat = xs.length * 16 := by
    rw [BitVec.toNat_ofNat, Nat.mod_eq_of_lt hlen, bytesOf_length]
  have hacc : Accepts (s.present [] []) m (BitVec.ofNat 24 (bytesOf xs).length) :=
    ⟨hb, hk, by rw [hbytes]; exact Nat.le_mul_of_pos_left 16 (Nat.zero_lt_of_lt hn),
      by rw [hbytes]; exact Nat.mul_mod_left xs.length 16, hv⟩
  have hcount : (blockCount (BitVec.ofNat 24 (bytesOf xs).length)).toNat = xs.length := by
    rw [blockCount_toNat, hbytes]; exact Nat.mul_div_cancel xs.length (by decide)
  have htake : (xs.take n).length = n := List.length_take_of_le hn.le
  rw [take_operationMoves, drive_startMove d _ _ hm hacc]
  obtain ⟨t, ht, hbusy, hidx⟩ := drive_blks_open (xs.take n)
    (((s.present [] []).openOperation m d (BitVec.ofNat 24 (bytesOf xs).length)).respond ⟨okWord, none⟩) [] rfl
    (by simpa [hcount, htake] using hn)
  exact ⟨t, ht, hbusy, by simpa [htake] using hidx⟩

/-- An idle engine that put out an operation's result holds a key (41_operation_commands.md R122). -/
theorem keyv_of_drive_operationMoves {s t : State} {f : BitVec 2} {m : Mode} {d : Dir} {buf out : List Byte} (hb : s.busy = false)
    (hm : modeOf f = some m) (h : drive s [] (operationMoves f d buf) = some (.output out, t)) : s.keyv = true := by
  by_contra hk
  obtain ⟨t', ht'⟩ := drive_operationMoves_raise (s := s)
    (execStart_invalidKeyLength d (BitVec.ofNat 24 buf.length) hb hm (Bool.eq_false_of_not_eq_true hk))
  simp [h] at ht'

/-- Settles O56: the stream of the first blocks is the start of the whole stream; after all blocks the result is the whole one. -/
theorem partialOutputIsAPrefix : Obligations.PartialOutputIsAPrefix := by
  intro s t m d buf out n hb hbuf hn h
  obtain ⟨mode, xs, hm, rfl, -, hv, rfl, -⟩ := drive_operationMoves_output hbuf h
  have hblocks : (bytesOf xs).length / 16 = xs.length := by rw [bytesOf_length]; exact Nat.mul_div_cancel xs.length (by decide)
  rw [hblocks] at hn ⊢
  rw [← bytesOf_take (by rwa [stream_length]), ← stream_take]
  obtain hlt | rfl := hn.lt_or_eq
  · obtain ⟨t', ht', hopen⟩ := drive_operationMoves_open d hm hbuf hb (keyv_of_drive_operationMoves hb hm h) hv hlt
    exact ⟨t', ht', fun _ => hopen⟩
  · refine ⟨t, ?_, fun hlt => absurd hlt (lt_irrefl _)⟩
    rw [List.take_length, List.take_of_length_le (by simp [operationMoves, blkMoves, hblocks, Nat.add_comm]), h]

end Sys2Proof.Machine

/-! The statements about every step and every payload: what moves that are no whole command amount to, that every step keeps the
invariants of 10_state.md R35, and that the primitive is a permutation. -/

namespace Sys2Proof.Machine

variable {B : Nat} {P : Primitive B} {s t : State B}

/-! ### Moves that are no whole command (20_memory.md R55; 93_implementation_defined.md U11, U14) -/

section
variable {w : Word} {p : List Byte}

theorem takeMove_short_last (h : p.length < plen w B) : takeMove [.issue w p] B = .wait := by
  simp [takeMove, h.ne, h.le]

theorem takeMove_short_reset (rest : List HostMove) (h : p.length < plen w B) :
    takeMove (.issue w p :: .reset :: rest) B = .reset rest := by
  simp [takeMove, h.ne, h.le]

theorem takeMove_short_issue (w' : Word) (p' : List Byte) (rest : List HostMove) (h : p.length < plen w B) :
    takeMove (.issue w p :: .issue w' p' :: rest) B = .illFramed := by
  simp [takeMove, h.ne]

theorem takeMove_long (rest : List HostMove) (h : plen w B < p.length) : takeMove (.issue w p :: rest) B = .illFramed := by
  simp [takeMove, h.ne', h]

end

/-- With nothing to take a step answers the same state, over any meanings of the instructions (20_memory.md R65). -/
theorem stepWith_wait {ex : Instr → State B → Result B} (h : takeMove s.moves B = .wait) : stepWith ex s = .next s := by
  rw [stepWith, h]

/-- A step that finds no command refuses, over any meanings of the instructions (93_implementation_defined.md U11, U14). -/
theorem stepWith_illFramed {ex : Instr → State B → Result B} (h : takeMove s.moves B = .illFramed) :
    stepWith ex s = .refused .illFramed := by
  rw [stepWith, h]

/-- Settles O19: no move and a short payload alone are a wait; a short payload before a reset is that reset. -/
theorem incompleteCommandsDoNothing : Obligations.IncompleteCommandsDoNothing := by
  refine fun s => ⟨fun hm => ?_, fun w p hm hp => ?_, fun w p rest hm hp => ?_⟩
  · exact stepWith_wait (by rw [hm]; rfl)
  · exact stepWith_wait (by rw [hm, takeMove_short_last hp])
  · rw [step, step, stepWith, hm, takeMove_short_reset rest hp, stepWith_reset rfl]
    rfl

/-- Settles O20: what is taken off the ports is no command. -/
theorem illFramedMovesAreRefused : Obligations.IllFramedMovesAreRefused := fun s w p rest =>
  ⟨fun hm hp => stepWith_illFramed (by rw [hm, takeMove_long rest hp]),
    fun w' p' hm hp => stepWith_illFramed (by rw [hm, takeMove_short_issue w' p' rest hp])⟩

/-! ### Every step keeps the invariants (10_state.md R35) -/

/-- Whatever a step did, it keeps the invariants: waiting keeps the elements, reset zeroes them, an error writes ERR alone, and a
success keeps them. -/
theorem legal_of_stepOver (hB : 1 ≤ B) (hs : s.Legal) (h : stepOver P s = .next t) : t.Legal := by
  obtain rfl | ⟨rest, -, rfl⟩ | ⟨w, p, rest, -, ⟨x, rfl⟩ | ⟨i, u, r, -, hu, rfl⟩⟩ := stepOver_cases h
  · exact hs
  · exact Elements.legal_reset
  · exact hs.with_err x
  · exact (hu.legal hB hs : u.Legal)

/-- What every step of a machine keeps, every run keeps. -/
theorem run_keeps {M : Host.Core} {p : M.State → Prop} (hstep : ∀ s t, p s → M.step s = .next t → p t) {n : Nat} {s t : M.State}
    (hs : p s) (h : M.run n s = .next t) : p t := by
  induction n generalizing s with
  | zero => cases h; exact hs
  | succ n ih =>
    unfold Host.Core.run at h
    split at h
    · exact ih (hstep s _ hs ‹_›) h
    · cases h
    · cases h

/-- Settles O13: `legal_of_stepOver` at B = 16, and the runs from reset, whose elements are legal. -/
theorem everyStepKeepsTheElementsLegal : Obligations.EveryStepKeepsTheElementsLegal := by
  have hstep : ∀ s t : State, s.Legal → step s = .next t → t.Legal := fun s t hs h =>
    legal_of_stepOver (by decide) hs (step_eq_stepOver s ▸ h)
  exact ⟨hstep, fun ms n t => run_keeps (M := Sys2Proof.core) (p := fun s : State => s.Legal) hstep Elements.legal_reset⟩

/-! ### The primitive (00_scope.md R8, R9) -/

/-- Settles O41: the laws of `Equiv.Perm`, whatever the free primitive is. -/
theorem primitiveIsAPermutation : Obligations.PrimitiveIsAPermutation := fun k =>
  ⟨D_E Config.primitive k, E_D Config.primitive k, (Config.primitive k).bijective⟩

end Sys2Proof.Machine

/-! The statements of 42_buffer_operations.md sections 2 and 3 that compare two runs: round trip, determinism, diffusion, the local
effect of a changed block, independence of the state, and splitting a buffer. -/

namespace Sys2Proof.Machine

variable {B : Nat}

/-! ### Blocks of a buffer (00_scope.md R12) -/

/-- A buffer has exactly `length / B` whole blocks. -/
theorem blk_eq_none_iff (hB : 0 < B) {buf : List Byte} {j : Nat} : blk buf j B = none ↔ buf.length / B ≤ j := by
  rw [blk, blockOf_eq_none]
  refine ⟨fun h => Nat.not_lt.1 fun hj => h (length_blkBytes hj), fun hj => ?_⟩
  have hend : buf.length < j * B + B := by rw [← Nat.succ_mul]; exact (Nat.div_lt_iff_lt_mul hB).1 (Nat.lt_succ_of_le hj)
  rw [blkBytes, List.length_take, List.length_drop]
  omega

theorem exists_blk {buf : List Byte} {j : Nat} (hj : j < buf.length / 16) : ∃ x, blk buf j = some x :=
  Option.ne_none_iff_exists'.1 fun h => Nat.not_le.2 hj ((blk_eq_none_iff (by decide)).1 h)

/-- Two buffers of one length that differ in block j both have it. -/
theorem lt_of_blk_ne {buf buf' : List Byte} {j : Nat} (hlen : buf.length = buf'.length) (hne : blk buf j ≠ blk buf' j) :
    j < buf.length / 16 := by
  by_contra hj
  have hj : buf.length / 16 ≤ j := Nat.not_lt.1 hj
  exact hne (((blk_eq_none_iff (by decide)).2 hj).trans ((blk_eq_none_iff (by decide)).2 (hlen ▸ hj)).symm)

/-- A buffer of at least one block, and of whole blocks, is the bytes of its blocks. -/
theorem exists_bytesOf_of_aligned {buf : List Byte} (hs : 16 ≤ buf.length) (ha : buf.length % 16 = 0) :
    ∃ xs, buf = bytesOf xs ∧ xs ≠ [] := by
  obtain ⟨xs, rfl, -⟩ := exists_bytesOf (buf.length / 16) buf (Nat.div_mul_cancel (Nat.dvd_of_mod_eq_zero ha)).symm
  exact ⟨xs, rfl, by rintro rfl; exact absurd hs (by decide)⟩

theorem bytesOf_append (xs ys : List Block) : bytesOf (xs ++ ys) = bytesOf xs ++ bytesOf ys := List.flatMap_append

/-! ### The block transforms (41_operation_commands.md R130 to R133) -/

section
variable {Q : Primitive} {m : Mode} {d d' : Dir} {k c c' x y : Block}

theorem dir_ne_iff : d ≠ d' ↔ (d = .enc ∧ d' = .dec) ∨ (d = .dec ∧ d' = .enc) := by
  cases d <;> cases d' <;> decide

/-- Under one key and chain the two directions undo each other. -/
theorem outputBlock_outputBlock (hd : d ≠ d') : outputBlock Q m d' k c (outputBlock Q m d k c x) = x := by
  obtain ⟨rfl, rfl⟩ | ⟨rfl, rfl⟩ := dir_ne_iff.1 hd <;> cases m <;> simp [outputBlock, xorBlock_cancel]

/-- The other direction, with input and output exchanged, leaves the same chain. -/
theorem nextChain_swap (hd : d ≠ d') : nextChain m d' c y x = nextChain m d c x y := by
  obtain ⟨rfl, rfl⟩ | ⟨rfl, rfl⟩ := dir_ne_iff.1 hd <;> cases m <;> rfl

/-- Each transform is injective in its input block: the other direction undoes it. -/
theorem outputBlock_injective (Q : Primitive) (m : Mode) (d : Dir) (k c : Block) : Function.Injective (outputBlock Q m d k c) := by
  obtain ⟨d', hd⟩ : ∃ d', d ≠ d' := by cases d; exacts [⟨.dec, nofun⟩, ⟨.enc, nofun⟩]
  exact Function.LeftInverse.injective fun _ => outputBlock_outputBlock hd

theorem xorBlock_right_injective (a : Block B) : Function.Injective (xorBlock a) := fun b b' h => by
  rw [← xorBlock_cancel b a, xorBlock_comm b a, h, xorBlock_comm a b', xorBlock_cancel]

/-- In CBC each transform is injective in the chain. -/
theorem chain_eq_of_outputBlock_cbc (h : outputBlock Q .cbc d k c x = outputBlock Q .cbc d k c' x) : c = c' := by
  cases d with
  | enc => exact xorBlock_right_injective x ((Q k).injective h)
  | dec => exact xorBlock_right_injective (Q.D k x) h

end

/-! ### Round trip (42_buffer_operations.md R167) -/

/-- Transforming the output of an operation in the other direction, from the same chain, gives its input. -/
theorem stream_stream (Q : Primitive) (m : Mode) {d d' : Dir} (hd : d ≠ d') (k c : Block) (xs : List Block) :
    stream Q m d' k c (stream Q m d k c xs) = xs := by
  induction xs generalizing c with
  | nil => rfl
  | cons x xs ih => rw [stream, stream, outputBlock_outputBlock hd, nextChain_swap hd, ih]

/-- Settles O48: both runs are accepted, and the second puts out the stream of the first one's stream. -/
theorem roundTrip : Obligations.RoundTrip := by
  intro s s' f k v buf d d' hb hb' hf hv hs ha hbuf hd
  obtain ⟨m, hm⟩ := exists_modeOf_iff.2 hf
  obtain ⟨xs, rfl, hne⟩ := exists_bytesOf_of_aligned hs ha
  have hiv : m = .cbc → v.isSome = true := fun h => Option.isSome_iff_ne_none.2 (hv ((eq_cbc_iff hm).1 h))
  have hlen : ∀ c, (stream Config.primitive m d k c xs).length = xs.length := fun c => stream_length ..
  obtain ⟨t, ht⟩ := run_accepted s f m d k v xs hm hne hbuf hb hiv
  obtain ⟨t', ht'⟩ := run_accepted s' f m d' k v (stream Config.primitive m d k (firstChain m (v.getD Block.zeros)) xs) hm
    (by rwa [← List.length_pos_iff, hlen, List.length_pos_iff]) (by rwa [bytesOf_length, hlen, ← bytesOf_length]) hb' hiv
  rw [stream_stream _ _ hd] at ht'
  exact ⟨_, t, t', ht, ht'⟩

/-! ### ECB (42_buffer_operations.md R168, R172) -/

/-- Settles O49: the ECB transform is injective. -/
theorem ecbDeterminism : Obligations.EcbDeterminism := by
  intro s s' t t' d k v v' buf buf' out out' hbuf hbuf' h h' i j _ _
  rw [blk_run_ecb hbuf h, blk_run_ecb hbuf' h']
  exact (Option.map_injective (outputBlock_injective Config.primitive .ecb d k Block.zeros)).eq_iff.symm

/-- Settles O54: each output block is the transform of its input block alone. -/
theorem ecbBlockIndependence : Obligations.EcbBlockIndependence := by
  intro s s' t t' d k v v' a b outA outB hlen h h'
  have hlen' : a.length + b.length < 2 ^ 24 := by rwa [← List.length_append]
  have ha : a.length < 2 ^ 24 := lt_of_le_of_lt (Nat.le_add_right ..) hlen'
  have hb : b.length < 2 ^ 24 := lt_of_le_of_lt (Nat.le_add_left ..) hlen'
  refine ⟨fun f hf j hj => ?_, ?_⟩
  · rw [blk_run_ecb hb h', hf j hj, blk_run_ecb ha h]
  · obtain ⟨xs, rfl, hne, hidle, rfl⟩ := run_output (m := .ecb) rfl ha h
    obtain ⟨ys, rfl, -, -, rfl⟩ := run_output (m := .ecb) rfl hb h'
    obtain ⟨t'', ht''⟩ := run_accepted s 0#2 .ecb d k v (xs ++ ys) rfl (List.append_ne_nil_of_left_ne_nil hne ys)
      (by rwa [bytesOf_append]) hidle nofun
    rw [stream_ecb, List.map_append, ← stream_ecb, ← stream_ecb, bytesOf_append, bytesOf_append] at ht''
    exact ⟨t'', ht''⟩

/-! ### Two CBC runs, block by block (42_buffer_operations.md R169, R170) -/

/-- `prev` of block i is settled by the blocks before it. -/
theorem cbcPrev_congr {v : Block} {a b : List Byte} {i : Nat} (h : ∀ j < i, blk a j = blk b j) : cbcPrev v a i = cbcPrev v b i := by
  cases i with
  | zero => rfl
  | succ i => exact h i (Nat.lt_succ_self i)

section
variable {s s' t t' : State} {d : Dir} {k v v' : Block} {buf buf' out out' : List Byte} {j : Nat}

/-- `blk_run_cbc` for any j: there is an output block exactly where there is an input block. -/
theorem blk_run_cbc_eq_map₂ (hbuf : buf.length < 2 ^ 24) (h : run s 1#2 d k.toList (some v) buf = some (.output out, t)) (j : Nat) :
    blk out j = Option.map₂ (outputBlock Config.primitive .cbc d k) (cbcPrev v (if d = .enc then out else buf) j) (blk buf j) := by
  cases hx : blk buf j with
  | some x =>
    obtain ⟨prev, hprev, hout⟩ := blk_run_cbc hbuf h hx
    rw [hprev, hout]; rfl
  | none =>
    obtain ⟨xs, rfl, -, -, rfl⟩ := run_output (m := .cbc) rfl hbuf h
    simpa using hx

variable (hlen : buf.length = buf'.length) (hbuf : buf.length < 2 ^ 24)
  (h : run s 1#2 d k.toList (some v) buf = some (.output out, t))
  (h' : run s' 1#2 d k.toList (some v') buf' = some (.output out', t'))
include hlen hbuf h h'

/-- Two runs under one key agree in a block where input and `prev` agree. -/
theorem blk_run_cbc_congr (hin : blk buf j = blk buf' j)
    (hprev : cbcPrev v (if d = .enc then out else buf) j = cbcPrev v' (if d = .enc then out' else buf') j) :
    blk out j = blk out' j := by
  rw [blk_run_cbc_eq_map₂ hbuf h, blk_run_cbc_eq_map₂ (hlen ▸ hbuf) h', hprev, hin]

/-- Two runs under one key differ in a block where the input differs and `prev` agrees. -/
theorem blk_run_cbc_ne_of_input_ne (hin : blk buf j ≠ blk buf' j)
    (hprev : cbcPrev v (if d = .enc then out else buf) j = cbcPrev v' (if d = .enc then out' else buf') j) :
    blk out j ≠ blk out' j := by
  have hj := lt_of_blk_ne hlen hin
  obtain ⟨x, hx⟩ := exists_blk hj
  obtain ⟨x', hx'⟩ := exists_blk (hlen ▸ hj)
  obtain ⟨prev, hp, hout⟩ := blk_run_cbc hbuf h hx
  obtain ⟨prev', hp', hout'⟩ := blk_run_cbc (hlen ▸ hbuf) h' hx'
  obtain rfl : prev = prev' := Option.some.inj (by rw [← hp, hprev, hp'])
  rw [hx, hx'] at hin
  rw [hout, hout']
  exact fun he => hin (congrArg some (outputBlock_injective _ _ _ _ _ (Option.some.inj he)))

/-- Two runs under one key differ in a block where the input agrees and `prev` differs. -/
theorem blk_run_cbc_ne_of_prev_ne (hj : j < buf.length / 16) (hin : blk buf j = blk buf' j)
    (hprev : cbcPrev v (if d = .enc then out else buf) j ≠ cbcPrev v' (if d = .enc then out' else buf') j) :
    blk out j ≠ blk out' j := by
  obtain ⟨x, hx⟩ := exists_blk hj
  obtain ⟨prev, hp, hout⟩ := blk_run_cbc hbuf h hx
  obtain ⟨prev', hp', hout'⟩ := blk_run_cbc (hlen ▸ hbuf) h' (hin.symm.trans hx)
  rw [hp, hp'] at hprev
  rw [hout, hout']
  exact fun he => hprev (congrArg some (chain_eq_of_outputBlock_cbc (Option.some.inj he)))

end

/-- Settles O50: where the inputs first differ `prev` still agrees, and after that each `prev` is a ciphertext block that differs. -/
theorem cbcDiffusion : Obligations.CbcDiffusion := by
  intro s s' t t' k v buf buf' out out' i hlen hbuf h h' heq
  have hbefore : ∀ j < i, blk out j = blk out' j := by
    intro j hj
    induction j using Nat.strong_induction_on with
    | h j ih => exact blk_run_cbc_congr hlen hbuf h h' (heq j hj) (cbcPrev_congr fun l hl => ih l hl (hl.trans hj))
  have hat : blk buf i ≠ blk buf' i → blk out i ≠ blk out' i := fun hne =>
    blk_run_cbc_ne_of_input_ne hlen hbuf h h' hne (cbcPrev_congr hbefore)
  refine ⟨hbefore, hat, fun hne hafter j hij => ?_⟩
  induction j, hij using Nat.le_induction with
  | base => exact fun _ => hat hne
  | succ j hij ih =>
    intro hj
    exact blk_run_cbc_ne_of_prev_ne hlen hbuf h h' hj (hafter (j + 1) (Nat.lt_succ_of_le hij)) (ih (Nat.lt_of_succ_lt hj))

/-- XORs with one block differ by what the other blocks differ by. -/
theorem xorBlock_xorBlock_same (a b c : Block B) : xorBlock (xorBlock a b) (xorBlock a c) = xorBlock b c := by
  rw [xorBlock_comm a b, xorBlock_assoc, ← xorBlock_assoc a a c, xorBlock_self, xorBlock_comm _ c, xorBlock_zeros]

/-- Settles O51: block i has the same `prev`, block i + 1 has `prev` c or c', and every other block has the same input and `prev`. -/
theorem cbcDecryptionLocalEffect : Obligations.CbcDecryptionLocalEffect := by
  intro s s' t t' k v c c' buf buf' out out' i hlen hbuf h h' hc hc' hne heq
  refine ⟨?_, fun p p' hp hp' => ?_, fun j hi hi1 => ?_⟩
  · refine blk_run_cbc_ne_of_input_ne hlen hbuf h h' (by rwa [hc, hc', Ne, Option.some_inj]) ?_
    exact cbcPrev_congr fun j hj => heq j hj.ne
  · have hprev : cbcPrev v (if Dir.dec = .enc then out else buf) (i + 1) = some c := hc
    have hprev' : cbcPrev v (if Dir.dec = .enc then out' else buf') (i + 1) = some c' := hc'
    rw [blk_run_cbc_eq_map₂ hbuf h, hprev, heq (i + 1) (Nat.succ_ne_self i), Option.map₂_coe_left] at hp
    rw [blk_run_cbc_eq_map₂ (hlen ▸ hbuf) h', hprev', Option.map₂_coe_left] at hp'
    obtain ⟨x, hx, rfl⟩ := Option.map_eq_some_iff.1 hp
    obtain ⟨x', hx', rfl⟩ := Option.map_eq_some_iff.1 hp'
    obtain rfl : x = x' := Option.some.inj (hx.symm.trans hx')
    exact xorBlock_xorBlock_same (Config.primitive.D k x) c c'
  · refine blk_run_cbc_congr hlen hbuf h h' (heq j hi) ?_
    cases j with
    | zero => rfl
    | succ j => exact heq j (fun hj => hi1 (congrArg (· + 1) hj))

/-! ### Splitting a CBC buffer (42_buffer_operations.md R176) -/

/-- In CBC the blocks after `xs` are transformed from the chain that `xs` leaves, which without any block is the first one. -/
theorem stream_cbc_append (Q : Primitive) (d : Dir) (k c c' : Block) (xs ys : List Block)
    (hc : (c :: chainBlocks Q d k c xs)[xs.length]? = some c') :
    stream Q .cbc d k c (xs ++ ys) = stream Q .cbc d k c xs ++ stream Q .cbc d k c' ys := by
  induction xs generalizing c with
  | nil => cases hc; rfl
  | cons x xs ih =>
    rw [chainBlocks_cons] at hc
    exact congrArg (outputBlock Q .cbc d k c x :: ·) (ih _ hc)

/-- Settles O55: the chain the first part leaves is the IV the second part is run under. -/
theorem cbcSplitWithReloadedIv : Obligations.CbcSplitWithReloadedIv := by
  intro s s' t t' d k v v' a b outA outB hlen h hv' h'
  have hlen' : a.length + b.length < 2 ^ 24 := by rwa [← List.length_append]
  have ha : a.length < 2 ^ 24 := lt_of_le_of_lt (Nat.le_add_right ..) hlen'
  have hb : b.length < 2 ^ 24 := lt_of_le_of_lt (Nat.le_add_left ..) hlen'
  obtain ⟨xs, rfl, hne, hidle, rfl⟩ := run_output (m := .cbc) rfl ha h
  obtain ⟨ys, rfl, -, -, rfl⟩ := run_output (m := .cbc) rfl hb h'
  have hchain : (v :: chainBlocks Config.primitive d k v xs)[xs.length]? = some v' := by
    obtain ⟨n, hn⟩ := Nat.exists_eq_succ_of_ne_zero (List.length_pos_iff.2 hne).ne'
    have hblocks : (bytesOf xs).length / 16 - 1 = n := by rw [bytesOf_length, Nat.mul_div_cancel _ (by decide), hn]; rfl
    rw [hblocks] at hv'
    rw [hn, List.getElem?_cons_succ]
    cases d <;> exact (blk_bytesOf _ n).symm.trans hv'
  obtain ⟨t'', ht''⟩ := run_accepted s 1#2 .cbc d k (some v) (xs ++ ys) rfl (List.append_ne_nil_of_left_ne_nil hne ys)
    (by rwa [bytesOf_append]) hidle fun _ => rfl
  refine ⟨t'', ?_⟩
  rw [← bytesOf_append, ht'', ← bytesOf_append]
  exact congrArg (fun zs => some (RunOutcome.output (bytesOf zs), t'')) (stream_cbc_append _ d k v v' xs ys hchain)

/-! ### What an outcome depends on (42_buffer_operations.md R160, R171) -/

/-- The tests of START read KEYV and IVV alone: two idle states that agree there take the same error, or both accept
(41_operation_commands.md R122). -/
theorem execStart_agree {s s' : State B} (f : BitVec 2) (d : Dir) (len : Len) (hb : s.busy = false) (hb' : s'.busy = false)
    (hk : s.keyv = s'.keyv) (hv : s.ivv = s'.ivv) :
    (∃ x, execStart f d len s = raise x s ∧ execStart f d len s' = raise x s') ∨
    ∃ m, modeOf f = some m ∧ Accepts s m len ∧ Accepts s' m len := by
  rw [execStart, execStart, if_neg (by simp [hb]), if_neg (by simp [hb']), ← hk, ← hv]
  cases hm : modeOf f with
  | none => exact .inl ⟨.unknownMode, rfl, rfl⟩
  | some m =>
    dsimp only
    split_ifs with hkey hshort hmod hiv
    · exact .inl ⟨.invalidKeyLength, rfl, rfl⟩
    · exact .inl ⟨.shortInput, rfl, rfl⟩
    · exact .inl ⟨.misalignedInput, rfl, rfl⟩
    · exact .inl ⟨.missingIV, rfl, rfl⟩
    · have hkey : s.keyv = true := by simpa using hkey
      have hs : B ≤ len.toNat := by simpa [lenShort] using hshort
      have ha : len.toNat % B = 0 := by simpa [lenMisaligned] using hmod
      have hi : m = .cbc → s.ivv = true := fun hc => by simpa [hc] using hiv
      exact .inr ⟨m, rfl, ⟨hb, hkey, hs, ha, hi⟩, ⟨hb', hk ▸ hkey, hs, ha, hv ▸ hi⟩⟩

/-- Two idle states that agree in key and IV give an operation the same outcome. -/
theorem drive_operationMoves_congr {s s' : State} (f : BitVec 2) (d : Dir) {buf : List Byte} (hb : s.busy = false)
    (hb' : s'.busy = false) (hbuf : buf.length < 2 ^ 24) (hkey : s.key = s'.key) (hkeyv : s.keyv = s'.keyv) (hiv : s.iv = s'.iv)
    (hivv : s.ivv = s'.ivv) :
    (drive s [] (operationMoves f d buf)).map Prod.fst = (drive s' [] (operationMoves f d buf)).map Prod.fst := by
  obtain ⟨x, h, h'⟩ | ⟨m, hm, ⟨-, hk, hs, ha, hv⟩, ⟨-, hk', -, -, hv'⟩⟩ := execStart_agree (s := s.present [] [])
    (s' := s'.present [] []) f d (BitVec.ofNat 24 buf.length) hb hb' hkeyv hivv
  · obtain ⟨t, ht⟩ := drive_operationMoves_raise h
    obtain ⟨t', ht'⟩ := drive_operationMoves_raise h'
    rw [ht, ht']; rfl
  · rw [BitVec.toNat_ofNat, Nat.mod_eq_of_lt hbuf] at hs ha
    obtain ⟨xs, rfl, hne⟩ := exists_bytesOf_of_aligned hs ha
    obtain ⟨t, ht, -⟩ := drive_operation s f m d xs [] hm hne hbuf hb hk hv
    obtain ⟨t', ht', -⟩ := drive_operation s' f m d xs [] hm hne hbuf hb' hk' hv'
    rw [ht, ht', hkey, hiv]; rfl

/-- Driving ends with nothing where a step refuses. -/
theorem drive_cons_refused {s : State} {mv : HostMove} {ms : List HostMove} {out : List Byte} {r : Refusal}
    (h : step { s with moves := [mv] } = .refused r) : drive s out (mv :: ms) = none := by
  simp [drive, driveWith, h]

/-- A key of 256 bytes or more makes no KEYLD, whatever the state (entry 15). -/
theorem drive_keyldMove_long (s : State) {k : List Byte} (ms : List HostMove) (out : List Byte) (hk : 256 ≤ k.length) :
    drive s out (keyldMove k :: ms) = none := by
  have hlong : plen (encode (.keyld (BitVec.ofNat 8 k.length))) < k.length := by
    rw [plen_keyldWord]; exact (BitVec.isLt _).trans_le hk
  exact drive_cons_refused (stepWith_illFramed (takeMove_long [] hlong))

/-- A key shorter than 256 bytes and not of B bytes stops the run at KEYLD, in any idle state (40_setup_commands.md R100). -/
theorem drive_keyldMove_badLength {s : State} {k : List Byte} (ms : List HostMove) (out : List Byte) (hb : s.busy = false)
    (hk : k.length < 256) (hlen : k.length ≠ 16) :
    ∃ t, drive s out (keyldMove k :: ms) = some (.error Err.invalidKeyLength.code, t) := by
  have hn : (BitVec.ofNat 8 k.length).toNat ≠ 16 := by rwa [BitVec.toNat_ofNat, Nat.mod_eq_of_lt hk]
  exact drive_cons_raise ((step_keyld s k hk).trans (execKeyld_badLength hb hn)) rfl

/-- Settles O53: an operation reads key and IV alone, and a run has written both before its operation starts, unless its key stops it. -/
theorem outcomesDependOnNothingElse : Obligations.OutcomesDependOnNothingElse := by
  refine fun s s' m d buf hb hb' hbuf => ⟨drive_operationMoves_congr m d hb hb' hbuf, fun k v => ?_⟩
  rw [run_eq_drive, run_eq_drive, runMoves]
  obtain hk | hk := Nat.lt_or_ge k.length 256
  · by_cases hlen : k.length = 16
    · obtain ⟨key, rfl, -⟩ := blockOf_isSome hlen
      obtain ⟨u, hu, he⟩ := drive_setup s key v (operationMoves m d buf) [] hb
      obtain ⟨u', hu', he'⟩ := drive_setup s' key v (operationMoves m d buf) [] hb'
      rw [hu, hu']
      exact drive_operationMoves_congr m d (by rw [he]; exact hb) (by rw [he']; exact hb') hbuf (by rw [he, he']) (by rw [he, he'])
        (by rw [he, he']) (by rw [he, he'])
    · obtain ⟨t, ht⟩ := drive_keyldMove_badLength (ivMove v :: operationMoves m d buf) [] hb hk hlen
      obtain ⟨t', ht'⟩ := drive_keyldMove_badLength (ivMove v :: operationMoves m d buf) [] hb' hk hlen
      rw [ht, ht']; rfl
  · rw [drive_keyldMove_long s _ _ hk, drive_keyldMove_long s' _ _ hk]

end Sys2Proof.Machine
